-- ==== Sys2Proof/Word.lean ====
section
/-! DEFINITION. The fixed widths of the block (00_scope.md R11). Every value of the block is an unsigned
integer of one of these widths (R13, R14); one-bit flags, levels and keep bits are `Bool`. -/

namespace Sys2Proof

/-- A channel byte, a brightness, a speed, a countdown, a repeat counter or a bit-position counter (R11). -/
abbrev Byte := BitVec 8

/-- A color: R in bits 31:24, G in 23:16, B in 15:8, W in 7:0 (30_encoding.md R84). -/
abbrev Color := BitVec 32

/-- A mode tag (R11; any value is legal, 10_state.md R25). -/
abbrev ModeTag := BitVec 8

/-- A remote code word (30_encoding.md R91). -/
abbrev CodeWord := BitVec 16

/-- A count of elapsed decoder ticks (R11; 10_state.md R39). -/
abbrev Ticks := BitVec 16

/-- A command index: 0 is "unrecognized", 1 to N_CMD name table entries (30_encoding.md R92). -/
abbrev CmdIndex := BitVec 8

/-- A host command word (30_encoding.md R81). -/
abbrev CommandWord := BitVec 64

/-- An action descriptor of the configuration (30_encoding.md R95). -/
abbrev Descriptor := BitVec 48

end Sys2Proof
end

