-- ==== Sys2Proof/Syntax.lean ====
section
/-! DEFINITION. The operations of the block: one constructor per row of spec/opcode_table.json, the nine
command words of the host port (30_encoding.md R82) and the seven action kinds of the configuration (R96). -/

namespace Sys2Proof

/-- An operation with its operands, assembled as 30_encoding.md R97 says. -/
inductive Instr where
  /-- NOP (44_control.md R250). -/
  | nop
  /-- SEND_BYTE: the byte `b` at brightness `s` (40_encoder.md R133). -/
  | sendByte (b : Byte) (s : Byte)
  /-- SEND_PIXEL: the color `c` at brightness `s` (40_encoder.md R134). -/
  | sendPixel (c : Color) (s : Byte)
  /-- SEND_FRAME: every pixel of color `c` at brightness `s` (40_encoder.md R135). -/
  | sendFrame (c : Color) (s : Byte)
  /-- SEND_RESET (40_encoder.md R136). -/
  | sendReset
  /-- FRAME_TICK (43_render.md R240). -/
  | frameTick
  /-- DEC_EDGE: an edge to level `lv` (true is rising) after `t` ticks (41_decoder.md R165). -/
  | decEdge (lv : Bool) (t : Ticks)
  /-- CMD_RECEIVE of the code word `w` (42_interpreter.md R203). -/
  | cmdReceive (w : CodeWord)
  /-- CMD_REPEAT of the code word `w` (42_interpreter.md R204). -/
  | cmdRepeat (w : CodeWord)
  /-- A_NOP (42_interpreter.md R207). -/
  | aNop
  /-- A_POWER (42_interpreter.md R208). -/
  | aPower
  /-- A_BRIGHT_UP (42_interpreter.md R209). -/
  | aBrightUp
  /-- A_BRIGHT_DOWN (42_interpreter.md R210). -/
  | aBrightDown
  /-- A_SPEED_UP (42_interpreter.md R211). -/
  | aSpeedUp
  /-- A_SPEED_DOWN (42_interpreter.md R212). -/
  | aSpeedDown
  /-- A_SELECT with keep bits `km` and `kc`, the mode tag and the color to install (42_interpreter.md R213). -/
  | aSelect (km : Bool) (kc : Bool) (mode : ModeTag) (color : Color)
  deriving DecidableEq, Repr

/-- Whether the operation is a command word of the host port, not an action kind of the configuration. -/
def Instr.isCommand : Instr → Bool
  | .nop | .sendByte _ _ | .sendPixel _ _ | .sendFrame _ _ | .sendReset | .frameTick
  | .decEdge _ _ | .cmdReceive _ | .cmdRepeat _ => true
  | .aNop | .aPower | .aBrightUp | .aBrightDown | .aSpeedUp | .aSpeedDown | .aSelect _ _ _ _ => false

/-- The bits an operation is written in: a 64-bit command word or a 48-bit descriptor (30_encoding.md R98). -/
inductive Encoded where
  | command (cw : CommandWord)
  | descriptor (d : Descriptor)
  deriving DecidableEq, Repr

end Sys2Proof
end

