-- ==== Sys2Proof/WellFormed.lean ====
section
/-! DEFINITION. Which operations an encoding exists for. Operand widths are fixed by the types, so the
only check left is the one 30_encoding.md R96 puts on A_SELECT. -/

namespace Sys2Proof

/-- The check of 30_encoding.md R96: "MODE must be 0 when KM = 1; COLOR must be 0 when KC = 1". -/
abbrev SelectWellFormed (km kc : Bool) (mode : ModeTag) (color : Color) : Prop :=
  (km = true → mode = 0) ∧ (kc = true → color = 0)

/-- An operation is well formed when the fields its kind does not use are 0 (30_encoding.md R83, R96). -/
def Instr.wellFormed : Instr → Bool
  | .nop => true
  | .sendByte _ _ => true
  | .sendPixel _ _ => true
  | .sendFrame _ _ => true
  | .sendReset => true
  | .frameTick => true
  | .decEdge _ _ => true
  | .cmdReceive _ => true
  | .cmdRepeat _ => true
  | .aNop => true
  | .aPower => true
  | .aBrightUp => true
  | .aBrightDown => true
  | .aSpeedUp => true
  | .aSpeedDown => true
  | .aSelect km kc mode color => decide (SelectWellFormed km kc mode color)

end Sys2Proof
end

