-- ==== Sys2Proof/Decode.lean ====
section
/-! DEFINITION. Decoding and encoding of command words (30_encoding.md R81 to R88, R97) and of action
descriptors (R95 to R97). Both decoders are total and reject by name (R88). -/

namespace Sys2Proof

/-- Why a word names no operation. For a command word either reason is the one IllegalCommand condition of
60_exceptions.md R261, which the block absorbs (safe: nothing stops); for a descriptor any reason makes the
configuration ill formed (00_scope.md R10), so no machine is built for it. -/
inductive DecodeError where
  /-- The OP of a command word is not in the map (30_encoding.md R86). -/
  | unassignedOp (op : BitVec 8)
  /-- A reserved bit of a command word is 1 (30_encoding.md R85). -/
  | reservedBits (op : BitVec 8)
  /-- The KIND of a descriptor is 0x7 to 0xF (30_encoding.md R96). -/
  | undefinedKind (kind : BitVec 4)
  /-- A descriptor bit outside the fields of its kind is 1 (30_encoding.md R96). -/
  | descriptorReserved (kind : BitVec 4)
  /-- An A_SELECT descriptor has KM = 1 with MODE not 0, or KC = 1 with COLOR not 0 (30_encoding.md R96). -/
  | keptFieldNonzero
  deriving DecidableEq, Repr

/-! ## Command words -/

/-- The assigned operation codes (30_encoding.md R82). -/
inductive CommandOp where
  | nop | sendByte | sendPixel | sendFrame | sendReset | frameTick | decEdge | cmdReceive | cmdRepeat
  deriving DecidableEq, Repr

/-- The OP value of an operation code (30_encoding.md R82). -/
def CommandOp.code : CommandOp → BitVec 8
  | .nop => 0x00
  | .sendByte => 0x01
  | .sendPixel => 0x02
  | .sendFrame => 0x03
  | .sendReset => 0x04
  | .frameTick => 0x05
  | .decEdge => 0x10
  | .cmdReceive => 0x11
  | .cmdRepeat => 0x12

/-- The match word of a row (30_encoding.md R83). -/
def CommandOp.matchBits : CommandOp → CommandWord
  | .nop => 0x0000000000000000
  | .sendByte => 0x0100000000000000
  | .sendPixel => 0x0200000000000000
  | .sendFrame => 0x0300000000000000
  | .sendReset => 0x0400000000000000
  | .frameTick => 0x0500000000000000
  | .decEdge => 0x1000000000000000
  | .cmdReceive => 0x1100000000000000
  | .cmdRepeat => 0x1200000000000000

/-- The mask word of a row; it covers OP and the reserved bits (30_encoding.md R83). -/
def CommandOp.maskBits : CommandOp → CommandWord
  | .nop => 0xFFFFFFFFFFFFFFFF
  | .sendByte => 0xFF00FFFFFFFFFF00
  | .sendPixel => 0xFF00FFFF00000000
  | .sendFrame => 0xFF00FFFF00000000
  | .sendReset => 0xFFFFFFFFFFFFFFFF
  | .frameTick => 0xFFFFFFFFFFFFFFFF
  | .decEdge => 0xFFFE0000FFFFFFFF
  | .cmdReceive => 0xFFFF0000FFFFFFFF
  | .cmdRepeat => 0xFFFF0000FFFFFFFF

/-- Every row of the map (30_encoding.md R82). -/
def CommandOp.all : List CommandOp :=
  [.nop, .sendByte, .sendPixel, .sendFrame, .sendReset, .frameTick, .decEdge, .cmdReceive, .cmdRepeat]

/-- The operation an OP value is assigned to, if any (30_encoding.md R82, R86). -/
def CommandOp.ofCode (op : BitVec 8) : Option CommandOp :=
  CommandOp.all.find? (fun o => o.code == op)

/-- The field OP (30_encoding.md R81). -/
def opField (cw : CommandWord) : BitVec 8 := cw.extractLsb' 56 8

/-- The field S: the brightness of SEND_* (30_encoding.md R81). -/
def sField (cw : CommandWord) : BitVec 8 := cw.extractLsb' 48 8

/-- The field H: a code word or elapsed ticks (30_encoding.md R81). -/
def hField (cw : CommandWord) : BitVec 16 := cw.extractLsb' 32 16

/-- The field C: a color (30_encoding.md R81). -/
def cField (cw : CommandWord) : BitVec 32 := cw.extractLsb' 0 32

/-- The byte operand of SEND_BYTE, C[7:0] (30_encoding.md R83). -/
def byteField (cw : CommandWord) : BitVec 8 := cw.extractLsb' 0 8

/-- The level operand of DEC_EDGE, S[0] (30_encoding.md R83). -/
def levelField (cw : CommandWord) : Bool := cw.getLsbD 48

/-- The operation of a row with the operands of a word (30_encoding.md R97). -/
def CommandOp.assemble (o : CommandOp) (cw : CommandWord) : Instr :=
  match o with
  | .nop => .nop
  | .sendByte => .sendByte (byteField cw) (sField cw)
  | .sendPixel => .sendPixel (cField cw) (sField cw)
  | .sendFrame => .sendFrame (cField cw) (sField cw)
  | .sendReset => .sendReset
  | .frameTick => .frameTick
  | .decEdge => .decEdge (levelField cw) (hField cw)
  | .cmdReceive => .cmdReceive (hField cw)
  | .cmdRepeat => .cmdRepeat (hField cw)

/-- The decoding procedure of 30_encoding.md R88, total on all 2^64 words. -/
def decodeCommand (cw : CommandWord) : Except DecodeError Instr :=
  match CommandOp.ofCode (opField cw) with
  | none => .error (.unassignedOp (opField cw))
  | some o =>
    if cw &&& o.maskBits = o.matchBits then .ok (o.assemble cw)
    else .error (.reservedBits (opField cw))

/-! ## Action descriptors -/

/-- The defined action kinds (30_encoding.md R96). -/
inductive ActionKind where
  | nop | power | brightUp | brightDown | speedUp | speedDown | select
  deriving DecidableEq, Repr

/-- The KIND value of an action kind (30_encoding.md R96). -/
def ActionKind.code : ActionKind → BitVec 4
  | .nop => 0x0
  | .power => 0x1
  | .brightUp => 0x2
  | .brightDown => 0x3
  | .speedUp => 0x4
  | .speedDown => 0x5
  | .select => 0x6

/-- The match word of a kind's row in spec/opcode_table.json. -/
def ActionKind.matchBits : ActionKind → Descriptor
  | .nop => 0x000000000000
  | .power => 0x100000000000
  | .brightUp => 0x200000000000
  | .brightDown => 0x300000000000
  | .speedUp => 0x400000000000
  | .speedDown => 0x500000000000
  | .select => 0x600000000000

/-- The mask word of a kind's row: KIND and every bit its kind does not use (30_encoding.md R95, R96). -/
def ActionKind.maskBits : ActionKind → Descriptor
  | .nop => 0xFFFFFFFFFFFF
  | .power => 0xFFFFFFFFFFFF
  | .brightUp => 0xFFFFFFFFFFFF
  | .brightDown => 0xFFFFFFFFFFFF
  | .speedUp => 0xFFFFFFFFFFFF
  | .speedDown => 0xFFFFFFFFFFFF
  | .select => 0xF30000000000

/-- Every defined kind (30_encoding.md R96). -/
def ActionKind.all : List ActionKind :=
  [.nop, .power, .brightUp, .brightDown, .speedUp, .speedDown, .select]

/-- The kind a KIND value names, if it is defined (30_encoding.md R96). -/
def ActionKind.ofCode (k : BitVec 4) : Option ActionKind :=
  ActionKind.all.find? (fun a => a.code == k)

/-- The field KIND (30_encoding.md R95). -/
def kindField (d : Descriptor) : BitVec 4 := d.extractLsb' 44 4

/-- The field KM: 1 keeps the current mode (30_encoding.md R95). -/
def kmField (d : Descriptor) : Bool := d.getLsbD 43

/-- The field KC: 1 keeps the current color (30_encoding.md R95). -/
def kcField (d : Descriptor) : Bool := d.getLsbD 42

/-- The field MODE (30_encoding.md R95). -/
def modeField (d : Descriptor) : ModeTag := d.extractLsb' 32 8

/-- The field COLOR (30_encoding.md R95). -/
def colorField (d : Descriptor) : Color := d.extractLsb' 0 32

/-- The action of a kind with the fields of a descriptor (30_encoding.md R97). -/
def ActionKind.assemble (k : ActionKind) (d : Descriptor) : Instr :=
  match k with
  | .nop => .aNop
  | .power => .aPower
  | .brightUp => .aBrightUp
  | .brightDown => .aBrightDown
  | .speedUp => .aSpeedUp
  | .speedDown => .aSpeedDown
  | .select => .aSelect (kmField d) (kcField d) (modeField d) (colorField d)

/-- The action a descriptor describes, or why it describes none (30_encoding.md R95, R96). -/
def decodeDescriptor (d : Descriptor) : Except DecodeError Instr :=
  match ActionKind.ofCode (kindField d) with
  | none => .error (.undefinedKind (kindField d))
  | some k =>
    if d &&& k.maskBits = k.matchBits then
      if (k.assemble d).wellFormed then .ok (k.assemble d) else .error .keptFieldNonzero
    else .error (.descriptorReserved (kindField d))

/-- Whether a descriptor describes an action, the condition 00_scope.md R10 puts on every ACTION entry. -/
def descriptorDefined (d : Descriptor) : Bool :=
  match decodeDescriptor d with
  | .ok _ => true
  | .error _ => false

/-- Decoding of either form; no mode bit changes it (30_encoding.md R98). -/
def decode : Encoded → Except DecodeError Instr
  | .command cw => decodeCommand cw
  | .descriptor d => decodeDescriptor d

/-- The instruction in the low `nbits` bits of `w`, numbered as spec/opcode_table.json numbers them: a
64-bit number is a command word, a 48-bit one a descriptor, and no other length exists (30_encoding.md R98). -/
def decodeTableWord (nbits w : Nat) : Option Instr :=
  if nbits = 64 then (decodeCommand (BitVec.ofNat 64 w)).toOption
  else if nbits = 48 then (decodeDescriptor (BitVec.ofNat 48 w)).toOption
  else none

/-! ## Encoding -/

/-- A command word from its fields OP, S, H and C (30_encoding.md R81). -/
def packCommand (op s : BitVec 8) (h : BitVec 16) (c : BitVec 32) : CommandWord :=
  op ++ s ++ h ++ c

/-- A descriptor from its fields, the reserved bits 41:40 being 0 (30_encoding.md R95). -/
def packDescriptor (kind : BitVec 4) (km kc : Bool) (mode : ModeTag) (color : Color) : Descriptor :=
  kind ++ BitVec.ofBool km ++ BitVec.ofBool kc ++ 0#2 ++ mode ++ color

/-- The bits of an operation, written from the field tables of 30_encoding.md R82, R83, R95 and R96. -/
def encode : Instr → Encoded
  | .nop => .command (packCommand 0x00 0 0 0)
  | .sendByte b s => .command (packCommand 0x01 s 0 (0#24 ++ b))
  | .sendPixel c s => .command (packCommand 0x02 s 0 c)
  | .sendFrame c s => .command (packCommand 0x03 s 0 c)
  | .sendReset => .command (packCommand 0x04 0 0 0)
  | .frameTick => .command (packCommand 0x05 0 0 0)
  | .decEdge lv t => .command (packCommand 0x10 (0#7 ++ BitVec.ofBool lv) t 0)
  | .cmdReceive w => .command (packCommand 0x11 0 w 0)
  | .cmdRepeat w => .command (packCommand 0x12 0 w 0)
  | .aNop => .descriptor (packDescriptor 0x0 false false 0 0)
  | .aPower => .descriptor (packDescriptor 0x1 false false 0 0)
  | .aBrightUp => .descriptor (packDescriptor 0x2 false false 0 0)
  | .aBrightDown => .descriptor (packDescriptor 0x3 false false 0 0)
  | .aSpeedUp => .descriptor (packDescriptor 0x4 false false 0 0)
  | .aSpeedDown => .descriptor (packDescriptor 0x5 false false 0 0)
  | .aSelect km kc mode color => .descriptor (packDescriptor 0x6 km kc mode color)

end Sys2Proof
end

