-- ==== Sys2Proof/Config.lean ====
section
/-! DEFINITION. The implementation parameters of 00_scope.md R9, their well-formedness (R10), the values the
spec leaves open as opaque constants, and what the outside world drives in one cycle (10_state.md R45). -/

namespace Sys2Proof

/-! ## Parameters -/

/-- Whether the capture is masked while a pixel is transmitted (00_scope.md R9, 41_decoder.md R163). -/
inductive CaptureMask where
  | perPixel | none
  deriving DecidableEq, Repr

/-- One argument at which PATTERN differs from its default. -/
structure PatternEntry where
  mode : ModeTag
  color : Color
  index : Nat
  result : Color
  deriving DecidableEq, Repr

/-- The configuration record (00_scope.md R9). -/
structure Params where
  /-- F_CLK, in Hz; no rule reads it. -/
  fClk : Nat
  /-- N_PIX, the pixel count. -/
  nPix : Nat
  /-- T0H, in cycles. -/
  t0h : Nat
  /-- T0L, in cycles. -/
  t0l : Nat
  /-- T1H, in cycles. -/
  t1h : Nat
  /-- T1L, in cycles. -/
  t1l : Nat
  /-- T_RST, in cycles. -/
  tRst : Nat
  /-- TICK_DIV, cycles per tick. -/
  tickDiv : Nat
  /-- T_GAP, in ticks. -/
  tGap : Ticks
  /-- T_HDR_HI, in ticks. -/
  tHdrHi : Ticks
  /-- T_HDR_LO, in ticks. -/
  tHdrLo : Ticks
  /-- T_SHORT, in ticks. -/
  tShort : Ticks
  /-- K_BITS, in decoder invocations. -/
  kBits : Nat
  /-- N_CMD, the number of table entries. -/
  nCmd : Nat
  /-- CODE_TABLE; its first element is entry 1. -/
  codeTable : List CodeWord
  /-- ACTION; its first element is entry 1. -/
  action : List Descriptor
  /-- EX_LO, the lowest index excluded from repeat execution. -/
  exLo : CmdIndex
  /-- EX_HI, the highest index excluded from repeat execution. -/
  exHi : CmdIndex
  /-- CD_STEP, the countdown decrement. -/
  cdStep : Byte
  /-- PATTERN, as the list of arguments at which it differs from the uniform default (43_render.md R244).
  DESIGN CHOICE (log 3): its domain is finite, so every total function is such a list. -/
  pattern : List PatternEntry
  /-- CAPTURE_MASK. -/
  captureMask : CaptureMask
  /-- RST_RUN. -/
  rstRun : Bool
  /-- RST_BRIGHT. -/
  rstBright : Byte
  /-- RST_SPEED. -/
  rstSpeed : Byte
  /-- RST_MODE. -/
  rstMode : ModeTag
  /-- RST_COLOR. -/
  rstColor : Color
  deriving DecidableEq, Repr

/-- Every duration at least 1 cycle, and a 0-bit short high and long low (00_scope.md R10). -/
abbrev Params.TimingOk (p : Params) : Prop :=
  1 ≤ p.fClk ∧ 1 ≤ p.t0h ∧ 1 ≤ p.t0l ∧ 1 ≤ p.t1h ∧ 1 ≤ p.t1l ∧ 1 ≤ p.tRst ∧ 1 ≤ p.tickDiv ∧ p.t0h < p.t0l

/-- The counts lie in the ranges of 00_scope.md R9 and R10. -/
abbrev Params.CountsOk (p : Params) : Prop :=
  1 ≤ p.nPix ∧ p.nPix ≤ 65535 ∧ 1 ≤ p.kBits ∧ p.kBits ≤ 254 ∧ 1 ≤ p.exLo.toNat ∧ 1 ≤ p.exHi.toNat ∧
    1 ≤ p.cdStep.toNat

/-- CODE_TABLE and ACTION have N_CMD ≤ 255 entries, and every descriptor describes an action (00_scope.md
R9 and R10, 30_encoding.md R96). -/
abbrev Params.TablesOk (p : Params) : Prop :=
  p.nCmd ≤ 255 ∧ p.codeTable.length = p.nCmd ∧ p.action.length = p.nCmd ∧ p.action.all descriptorDefined = true

/-- A well-formed configuration (00_scope.md R10, with the legal ranges of R9). -/
abbrev Params.WellFormed (p : Params) : Prop :=
  p.TimingOk ∧ p.CountsOk ∧ p.TablesOk

/-- A configuration a machine is built for: only a well-formed one (00_scope.md R10). -/
abbrev Config := { p : Params // p.WellFormed }

/-- Building a configuration; an ill-formed one is refused, "builds no machine" (00_scope.md R10). -/
def Params.build (p : Params) : Option Config :=
  if h : p.WellFormed then some ⟨p, h⟩ else none

/-! ## The open values

00_scope.md R9 leaves these OPEN. Each is a constant with no body, so that nothing can be proved of it but what
`Config.chosen` builds in: its legal range (log 1). -/

namespace Config

/-- F_CLK less 1 (92_eei_decisions.md D32). -/
opaque openFClk : Nat
/-- N_PIX, read modulo its range (92_eei_decisions.md D36). -/
opaque openNPix : Nat
/-- T0H less 1 (92_eei_decisions.md D32). -/
opaque openT0h : Nat
/-- T0L less T0H + 1 (92_eei_decisions.md D32). -/
opaque openT0l : Nat
/-- T1H less 1 (92_eei_decisions.md D32). -/
opaque openT1h : Nat
/-- T1L less 1 (92_eei_decisions.md D32). -/
opaque openT1l : Nat
/-- T_RST less 1 (92_eei_decisions.md D32). -/
opaque openTRst : Nat
/-- TICK_DIV less 1 (92_eei_decisions.md D11). -/
opaque openTickDiv : Nat
/-- T_GAP (92_eei_decisions.md D33). -/
opaque openTGap : Ticks
/-- T_HDR_HI (92_eei_decisions.md D33). -/
opaque openTHdrHi : Ticks
/-- T_HDR_LO (92_eei_decisions.md D33). -/
opaque openTHdrLo : Ticks
/-- T_SHORT (92_eei_decisions.md D33). -/
opaque openTShort : Ticks
/-- K_BITS, read modulo its range (92_eei_decisions.md D33). -/
opaque openKBits : Nat
/-- CODE_TABLE and ACTION together, of which the defined descriptors count (92_eei_decisions.md D17, D36). -/
opaque openTable : List (CodeWord × Descriptor)
/-- EX_LO, read modulo its range (92_eei_decisions.md D18). -/
opaque openExLo : Nat
/-- EX_HI, read modulo its range (92_eei_decisions.md D18). -/
opaque openExHi : Nat
/-- PATTERN, as its exceptions to the uniform default (92_eei_decisions.md D22). -/
opaque openPattern : List PatternEntry

/-- A number brought into 1 to `top`; every value of that range is hit. -/
def intoRange (top n : Nat) : Nat := n % top + 1

/-- The table of the chosen configuration: at most 255 entries, each with a defined descriptor. -/
def chosenTable : List (CodeWord × Descriptor) :=
  (openTable.filter (fun e => descriptorDefined e.2)).take 255

/-- The configuration of the machine after reset: OPEN entries free, the others at the value or the default
00_scope.md R9 gives. Every well-formed choice of the OPEN entries is of this form. -/
def chosenParams : Params where
  fClk := openFClk + 1
  nPix := intoRange 65535 openNPix
  t0h := openT0h + 1
  t0l := openT0h + 2 + openT0l
  t1h := openT1h + 1
  t1l := openT1l + 1
  tRst := openTRst + 1
  tickDiv := openTickDiv + 1
  tGap := openTGap
  tHdrHi := openTHdrHi
  tHdrLo := openTHdrLo
  tShort := openTShort
  kBits := intoRange 254 openKBits
  nCmd := chosenTable.length
  codeTable := chosenTable.map (·.1)
  action := chosenTable.map (·.2)
  exLo := BitVec.ofNat 8 (intoRange 255 openExLo)
  exHi := BitVec.ofNat 8 (intoRange 255 openExHi)
  cdStep := 5
  pattern := openPattern
  captureMask := .perPixel
  rstRun := true
  rstBright := 255
  rstSpeed := 0
  rstMode := 0
  rstColor := 0x00000000

theorem intoRange_pos (top n : Nat) : 1 ≤ intoRange top n := Nat.le_add_left 1 _

theorem intoRange_le {top : Nat} (h : 0 < top) (n : Nat) : intoRange top n ≤ top :=
  Nat.mod_lt n h

theorem intoRange_byte_pos (n : Nat) : 1 ≤ (BitVec.ofNat 8 (intoRange 255 n)).toNat := by
  have h1 := intoRange_pos 255 n
  have h2 := intoRange_le (top := 255) (by decide) n
  rw [BitVec.toNat_ofNat, Nat.mod_eq_of_lt (by omega)]
  exact h1

theorem chosenParams_wellFormed : chosenParams.WellFormed := by
  refine ⟨?_, ?_, ?_⟩
  · simp only [Params.TimingOk, chosenParams]; omega
  · exact ⟨intoRange_pos _ _, intoRange_le (by decide) _, intoRange_pos _ _, intoRange_le (by decide) _,
      intoRange_byte_pos _, intoRange_byte_pos _, by decide⟩
  · refine ⟨List.length_take_le _ _, List.length_map _, List.length_map _, ?_⟩
    have hmem : ∀ e ∈ chosenTable, descriptorDefined e.2 = true := fun e he =>
      (List.mem_filter.mp (List.mem_of_mem_take he)).2
    simpa [chosenParams] using fun a b hab => hmem (a, b) hab

/-- The configuration of the machine after reset. -/
def chosen : Config := ⟨chosenParams, chosenParams_wellFormed⟩

end Config

/-! ## The outside world -/

/-- What the host does with the command port in one cycle (30_encoding.md R80): `idle w` leaves `cmd_valid`
at 0 with `w` on `cmd_word`; `word w` presents `w`, in this cycle only; `stream` presents the head of the host's command
stream, which stays its head until a cycle accepts it (and presents nothing when the stream is empty). -/
inductive HostDrive where
  | idle (w : CommandWord)
  | word (w : CommandWord)
  | stream
  deriving DecidableEq, Repr, Inhabited

/-- The input ports of one cycle: `rst`, `ir_in` as the first synchroniser stage samples it, and the command
port (10_state.md R45). -/
structure CycleIn where
  rst : Bool
  irIn : Bool
  host : HostDrive
  deriving DecidableEq, Repr, Inhabited

/-- The input ports of a cycle that nothing has scripted: free, "a draw" (00_scope.md R8; log 2). -/
opaque Config.freeInput : Nat → CycleIn

end Sys2Proof
end

