-- ==== Sys2Proof/Machine/State.lean ====
section
/-! DEFINITION. The state of the block (10_state.md) as plain data, the reasons a step can stop, and the state
in the first cycle after reset (10_state.md R50, 70_reset_and_hazards.md R292). -/

namespace Sys2Proof.Machine

open Sys2Proof

/-! ## Units -/

/-- The Render State RS (10_state.md R22 to R29). -/
structure RenderState where
  /-- RS.RUN. -/
  run : Bool
  /-- RS.BRIGHT. -/
  bright : Byte
  /-- RS.SPEED. -/
  speed : Byte
  /-- RS.MODE. -/
  mode : ModeTag
  /-- RS.COLOR. -/
  color : Color
  /-- RS.PMODE. -/
  pmode : ModeTag
  /-- RS.PCOLOR. -/
  pcolor : Color
  /-- RS.CD. -/
  cd : Byte
  deriving DecidableEq, Repr

/-- The Decoder State DS (10_state.md R31 to R36). -/
structure DecoderState where
  /-- DS.POS. -/
  pos : Byte
  /-- DS.CODE. -/
  code : CodeWord
  /-- DS.LAST. -/
  last : CodeWord
  /-- DS.DONE. -/
  done : Bool
  /-- DS.ARMED. -/
  armed : Bool
  /-- DS.REP. -/
  rep : Byte
  deriving DecidableEq, Repr

/-- The capture front end FE (10_state.md R38 to R41). -/
structure FrontEnd where
  /-- FE.S1. -/
  s1 : Bool
  /-- FE.S2. -/
  s2 : Bool
  /-- FE.PREV. -/
  prev : Bool
  /-- FE.TICKS. -/
  ticks : Ticks
  /-- FE.PRESC; its width follows TICK_DIV (10_state.md R40), so it is a number. -/
  presc : Nat
  /-- FE.PEND. -/
  pend : Bool
  deriving DecidableEq, Repr

/-- The tag of a segment (40_encoder.md R121). -/
inductive Tag where
  | pxStart | pxIn | none
  deriving DecidableEq, Repr

/-- A segment of a waveform (00_scope.md R16, 40_encoder.md R121). -/
structure Segment where
  /-- The level of `led_dout`. -/
  level : Bool
  /-- The cycles still to be driven. -/
  cycles : Nat
  tag : Tag
  /-- No cycle of the segment has been driven yet; 41_decoder.md R163 reads this of the head segment. -/
  first : Bool
  deriving DecidableEq, Repr

/-- The encoder (10_state.md R42). -/
structure Encoder where
  /-- ENC.WAVE, the segments still to be driven. -/
  wave : List Segment
  deriving DecidableEq, Repr

/-- The event record EVT (10_state.md R44). -/
structure EventRecord where
  /-- evt_valid. -/
  valid : Bool
  /-- evt_kind: false is receive, true is repeat. -/
  kind : Bool
  /-- evt_code. -/
  code : CodeWord
  /-- evt_index. -/
  index : CmdIndex
  /-- evt_exec. -/
  exec : Bool
  deriving DecidableEq, Repr

/-! ## The machine -/

/-- The whole state. `cfg`, `script`, `stream` and `cycle` are the model's own: the static configuration
(00_scope.md R9, R12; log 1) and the outside world (R8; log 2). -/
structure State where
  /-- The configuration the block is built with; no operation writes it (00_scope.md R12). -/
  cfg : Config
  rs : RenderState
  ds : DecoderState
  fe : FrontEnd
  enc : Encoder
  /-- ERR (10_state.md R43). -/
  err : Bool
  evt : EventRecord
  /-- The input ports of this cycle (the head) and of the cycles after it; beyond its end they are free. -/
  script : List CycleIn
  /-- The host's command stream, its head the next word to be accepted (10_state.md R21). -/
  stream : List CommandWord
  /-- How many cycles have passed; only `Config.freeInput` reads it. -/
  cycle : Nat
  deriving DecidableEq, Repr

/-- The parameters of the machine (00_scope.md R9). -/
abbrev State.params (s : State) : Params := s.cfg.val

/-- The ways the block can stop with a fault: none. "No fatal condition" exists (60_exceptions.md R266), and
every anomaly is absorbed (R260), so nothing raises a fault. -/
inductive Fault where
  deriving DecidableEq, Repr

/-- The ways the model can decline to run an operation. -/
inductive Refusal where
  /-- An operation without a meaning yet, raised by its arm of `exec` only. Safe. No arm of this model raises it. -/
  | notModelled (mnemonic : String)
  deriving DecidableEq, Repr

/-! ## Reset values -/

/-- RS after reset (10_state.md R50). -/
def RenderState.atReset (p : Params) : RenderState where
  run := p.rstRun
  bright := p.rstBright
  speed := p.rstSpeed
  mode := p.rstMode
  color := p.rstColor
  pmode := 0
  pcolor := 0x00000000
  cd := 0

/-- DS after reset (10_state.md R50). -/
def DecoderState.atReset : DecoderState where
  pos := 0
  code := 0
  last := 0
  done := false
  armed := false
  rep := 0

/-- FE after reset, its synchroniser stages at the given levels, which reset does not force (10_state.md R38, R50). -/
def FrontEnd.atReset (s1 s2 prev : Bool) : FrontEnd where
  s1 := s1
  s2 := s2
  prev := prev
  ticks := 0
  presc := 0
  pend := false

/-- ENC after reset (10_state.md R50). -/
def Encoder.atReset : Encoder where
  wave := []

/-- EVT after reset (10_state.md R50). -/
def EventRecord.atReset : EventRecord where
  valid := false
  kind := false
  code := 0
  index := 0
  exec := false

/-- The state in the first cycle after a reset held long enough with the pin at `pin` (70_reset_and_hazards.md
R291, R292), for the configuration `c`. -/
def State.afterReset (c : Config) (pin : Bool) : State where
  cfg := c
  rs := RenderState.atReset c.val
  ds := DecoderState.atReset
  fe := FrontEnd.atReset pin pin pin
  enc := Encoder.atReset
  err := false
  evt := EventRecord.atReset
  script := []
  stream := []
  cycle := 0

/-- The machine right after reset. DESIGN CHOICE (log 4): the pin was low; the spec lets the synchroniser follow it. -/
def State.reset : State := State.afterReset Config.chosen false

end Sys2Proof.Machine
end

