-- ==== Sys2Proof/Machine/Ops.lean ====
section
/-! DEFINITION. The named operations every unit is built from: the arithmetic of 00_scope.md R14, the writes of
each part of the state, and raising IllegalCommand (60_exceptions.md R261). -/

namespace Sys2Proof.Machine

open Sys2Proof

/-! ## Arithmetic (00_scope.md R14) -/

/-- `sat_add8`: addition clamped at 255. -/
def satAdd8 (a b : Byte) : Byte := BitVec.ofNat 8 (min 255 (a.toNat + b.toNat))

/-- `sat_sub8`: subtraction clamped at 0. -/
def satSub8 (a b : Byte) : Byte := BitVec.ofNat 8 (a.toNat - b.toNat)

/-- `sat_inc8`. -/
def satInc8 (a : Byte) : Byte := satAdd8 a 1

/-- `inc8`: addition of 1 modulo 256. -/
def inc8 (a : Byte) : Byte := a + 1

/-- `sat_inc16`: addition of 1 clamped at 65535. -/
def satInc16 (a : Ticks) : Ticks := BitVec.ofNat 16 (min 65535 (a.toNat + 1))

/-! ## Writes

Each replaces one part of the state; all the writes of a cycle land at its clock edge (20_memory.md R64). -/

/-- Write RS. -/
def State.withRs (s : State) (rs : RenderState) : State := { s with rs := rs }

/-- Write DS. -/
def State.withDs (s : State) (ds : DecoderState) : State := { s with ds := ds }

/-- Write FE. -/
def State.withFe (s : State) (fe : FrontEnd) : State := { s with fe := fe }

/-- Write ENC.WAVE. -/
def State.withWave (s : State) (w : List Segment) : State := { s with enc := { wave := w } }

/-- Write ERR. -/
def State.withErr (s : State) (e : Bool) : State := { s with err := e }

/-- Write EVT. -/
def State.withEvt (s : State) (e : EventRecord) : State := { s with evt := e }

/-- Move the outside world on. -/
def State.withWorld (s : State) (script : List CycleIn) (stream : List CommandWord) (cycle : Nat) : State :=
  { s with script := script, stream := stream, cycle := cycle }

/-- Write DS.REP; only the interpreter's entry paths do (10_state.md R36, 90_conflicts.md C3). -/
def State.withRep (s : State) (r : Byte) : State := s.withDs { s.ds with rep := r }

/-! ## The exception -/

/-- `raise IllegalCommand(cw)`, the only exception: its whole effect is ERR <- 1 (60_exceptions.md R261). There
is nothing to save and nowhere to go (R269), and no return (R270); only reset clears ERR (10_state.md R43). -/
def raiseIllegalCommand (s : State) : State := s.withErr true

end Sys2Proof.Machine
end

