-- ==== Sys2Proof/Machine/Control.lean ====
section
/-! DEFINITION. Port control (44_control.md): the meaning of NOP. -/

namespace Sys2Proof.Machine

open Sys2Proof

/-- NOP: no state is written (44_control.md R250). -/
def execNop (s : State) : Host.Outcome State Fault Refusal := .next s

end Sys2Proof.Machine
end

