-- ==== Sys2Proof/Machine/Operands.lean ====
section
/-! DEFINITION. The operands that an operation takes from the configuration and the state rather than from its
word: table lookups (42_interpreter.md R201, R202), the step (R206), the pattern (43_render.md R244) and the channels of
a color (30_encoding.md R84). The operands in a word are assembled in Sys2Proof/Decode.lean (30_encoding.md R97). -/

namespace Sys2Proof.Machine

open Sys2Proof

/-! ## Channels (30_encoding.md R84) -/

/-- The red channel of a color. -/
def red (c : Color) : Byte := c.extractLsb' 24 8

/-- The green channel of a color. -/
def green (c : Color) : Byte := c.extractLsb' 16 8

/-- The blue channel of a color. -/
def blue (c : Color) : Byte := c.extractLsb' 8 8

/-- The white channel of a color. -/
def white (c : Color) : Byte := c.extractLsb' 0 8

/-- A color from its channels. -/
def packColor (r g b w : Byte) : Color := r ++ g ++ b ++ w

/-! ## Tables -/

/-- The linear search of 42_interpreter.md R201 from entry `i` upward: the index of the first entry that is
`w`, or 0 when none is. -/
def lookupFrom (w : CodeWord) (i : Nat) : List CodeWord → Nat
  | [] => 0
  | e :: rest => if e = w then i else lookupFrom w (i + 1) rest

/-- `decode(w)`: the command index of a code word (42_interpreter.md R201). -/
def lookupIndex (p : Params) (w : CodeWord) : CmdIndex :=
  BitVec.ofNat 8 (lookupFrom w 1 p.codeTable)

/-- `ACTION[i]` as an action; none when `i` is 0 or past N_CMD (42_interpreter.md R202). -/
def actionAt (p : Params) (i : CmdIndex) : Option Instr :=
  if i = 0 then none
  else
    match p.action[i.toNat - 1]? with
    | none => none
    | some d => (decodeDescriptor d).toOption

/-- The step of a BRIGHT_* or SPEED_* action: DS.REP as it stands when the action runs (42_interpreter.md R206). -/
def stepOperand (s : State) : Byte := s.ds.rep

/-- `PATTERN(mode, color, i)` (43_render.md R244): uniform where the configuration lists no other value. -/
def patternColor (p : Params) (mode : ModeTag) (color : Color) (i : Nat) : Color :=
  match p.pattern.find? (fun e => e.mode == mode && e.color == color && e.index == i) with
  | none => color
  | some e => e.result

end Sys2Proof.Machine
end

