-- ==== Sys2Proof/Machine/Flags.lean ====
section
/-! DEFINITION. The one-bit conditions of the block: the strict threshold test (41_decoder.md R177), the flags of
10_state.md R47 that rules compute, the repeat exclusion (42_interpreter.md R205), encoder free and busy
(40_encoder.md R130, R132), and the conditions of the capture (41_decoder.md R160 to R163). -/

namespace Sys2Proof.Machine

open Sys2Proof

/-- "exceeds" is `>` (41_decoder.md R177). -/
def exceeds (t threshold : Ticks) : Bool := decide (threshold.toNat < t.toNat)

/-- An edge that ends a long gap: rising, and past T_GAP (41_decoder.md R167). -/
def isLongGap (p : Params) (lv : Bool) (t : Ticks) : Bool := lv && exceeds t p.tGap

/-- The completion test, made only while armed (41_decoder.md R171). -/
def isComplete (p : Params) (d : DecoderState) : Bool := d.armed && decide (p.kBits < d.pos.toNat)

/-- Whether the repeat path does not execute an index (42_interpreter.md R204, R205). -/
def suppressed (p : Params) (i : CmdIndex) : Bool :=
  decide (i ≠ 0) && decide (p.exLo.toNat ≤ i.toNat) && decide (i.toNat ≤ p.exHi.toNat)

/-- `len(w)`: the cycles a waveform lasts (00_scope.md R16). -/
def waveLen : List Segment → Nat
  | [] => 0
  | g :: rest => g.cycles + waveLen rest

/-- The encoder is free: at most 1 cycle remains (40_encoder.md R130). -/
def encoderFree (s : State) : Bool := decide (waveLen s.enc.wave ≤ 1)

/-- The encoder is busy: ENC.WAVE is not empty (10_state.md R42, 40_encoder.md R132). -/
def encoderBusy (s : State) : Bool := !s.enc.wave.isEmpty

/-- An edge is detected in this cycle (41_decoder.md R160). -/
def edgeDetected (s : State) : Bool := s.fe.s2 != s.fe.prev

/-- The segment masks the capture: PX_IN, or PX_START after its first cycle (41_decoder.md R163). -/
def Segment.masks (g : Segment) : Bool :=
  match g.tag with
  | .pxIn => true
  | .pxStart => !g.first
  | .none => false

/-- The capture is masked in this cycle (41_decoder.md R163). -/
def captureMasked (s : State) : Bool :=
  match s.enc.wave with
  | [] => false
  | g :: _ => g.masks && decide (s.params.captureMask = .perPixel)

/-- A pin edge is dispatched in this cycle: a service cycle with an edge detected or pending (41_decoder.md R162). -/
def pinDispatch (s : State) : Bool := !captureMasked s && (edgeDetected s || s.fe.pend)

end Sys2Proof.Machine
end

