-- ==== Sys2Proof/Machine/Actions.lean ====
section
/-! DEFINITION. The seven action kinds of the Command Interpreter (42_interpreter.md R207 to R213): the
operation on the state each performs, and its meaning. None raises an exception. -/

namespace Sys2Proof.Machine

open Sys2Proof

/-- `RS.RUN <- not RS.RUN` (42_interpreter.md R208). -/
def togglePower (s : State) : State := s.withRs { s.rs with run := !s.rs.run }

/-- `RS.BRIGHT <- sat_add8(RS.BRIGHT, step)` (42_interpreter.md R209). -/
def raiseBrightness (step : Byte) (s : State) : State :=
  s.withRs { s.rs with bright := satAdd8 s.rs.bright step }

/-- `RS.BRIGHT <- sat_sub8(RS.BRIGHT, step)` (42_interpreter.md R210). -/
def lowerBrightness (step : Byte) (s : State) : State :=
  s.withRs { s.rs with bright := satSub8 s.rs.bright step }

/-- `RS.SPEED <- sat_add8(RS.SPEED, step)` (42_interpreter.md R211). -/
def raiseSpeed (step : Byte) (s : State) : State :=
  s.withRs { s.rs with speed := satAdd8 s.rs.speed step }

/-- `RS.SPEED <- sat_sub8(RS.SPEED, step)` (42_interpreter.md R212). -/
def lowerSpeed (step : Byte) (s : State) : State :=
  s.withRs { s.rs with speed := satSub8 s.rs.speed step }

/-- The mode transition: current to previous, the new ones installed unless kept, the countdown to 255
(42_interpreter.md R213). -/
def selectMode (km kc : Bool) (mode : ModeTag) (color : Color) (s : State) : State :=
  s.withRs { s.rs with
    pmode := s.rs.mode
    pcolor := s.rs.color
    mode := if km then s.rs.mode else mode
    color := if kc then s.rs.color else color
    cd := 255 }

/-- What the interpreter does for an action (42_interpreter.md R202). A command word is no action: no descriptor
decodes to one. -/
def runAction (a : Instr) (s : State) : State :=
  match a with
  | .aNop => s
  | .aPower => togglePower s
  | .aBrightUp => raiseBrightness (stepOperand s) s
  | .aBrightDown => lowerBrightness (stepOperand s) s
  | .aSpeedUp => raiseSpeed (stepOperand s) s
  | .aSpeedDown => lowerSpeed (stepOperand s) s
  | .aSelect km kc mode color => selectMode km kc mode color s
  | .nop | .sendByte _ _ | .sendPixel _ _ | .sendFrame _ _ | .sendReset | .frameTick
  | .decEdge _ _ | .cmdReceive _ | .cmdRepeat _ => s

/-! ## Meanings -/

/-- A_NOP: no write (42_interpreter.md R207). -/
def execANop (s : State) : Host.Outcome State Fault Refusal := .next s

/-- A_POWER (42_interpreter.md R208). -/
def execAPower (s : State) : Host.Outcome State Fault Refusal := .next (togglePower s)

/-- A_BRIGHT_UP (42_interpreter.md R209). -/
def execABrightUp (s : State) : Host.Outcome State Fault Refusal := .next (raiseBrightness (stepOperand s) s)

/-- A_BRIGHT_DOWN (42_interpreter.md R210). -/
def execABrightDown (s : State) : Host.Outcome State Fault Refusal := .next (lowerBrightness (stepOperand s) s)

/-- A_SPEED_UP (42_interpreter.md R211). -/
def execASpeedUp (s : State) : Host.Outcome State Fault Refusal := .next (raiseSpeed (stepOperand s) s)

/-- A_SPEED_DOWN (42_interpreter.md R212). -/
def execASpeedDown (s : State) : Host.Outcome State Fault Refusal := .next (lowerSpeed (stepOperand s) s)

/-- A_SELECT (42_interpreter.md R213). -/
def execASelect (km kc : Bool) (mode : ModeTag) (color : Color) (s : State) : Host.Outcome State Fault Refusal :=
  .next (selectMode km kc mode color s)

end Sys2Proof.Machine
end

