-- ==== Sys2Proof/Machine/Interpreter.lean ====
section
/-! DEFINITION. The Command Interpreter's execution of a dispatch (42_interpreter.md R200 to R206) and the
meanings of CMD_RECEIVE and CMD_REPEAT. -/

namespace Sys2Proof.Machine

open Sys2Proof

/-- A dispatch of the decoder: `Receive(w)` or `Repeat(w)` (00_scope.md R17). -/
inductive Event where
  | receive (w : CodeWord)
  | repeated (w : CodeWord)
  deriving DecidableEq, Repr

/-- `exec(i, step)` with the step DS.REP (42_interpreter.md R202): index 0 changes nothing. -/
def executeIndex (i : CmdIndex) (s : State) : State :=
  match actionAt s.params i with
  | none => s
  | some a => runAction a s

/-- The event record of an interpreter execution (42_interpreter.md R200). -/
def eventRecord (kind : Bool) (w : CodeWord) (i : CmdIndex) (executed : Bool) : EventRecord where
  valid := true
  kind := kind
  code := w
  index := i
  exec := executed

/-- `on_receive(w)` (42_interpreter.md R203). -/
def onReceive (w : CodeWord) (s : State) : State :=
  let i := lookupIndex s.params w
  (executeIndex i (s.withRep 0)).withEvt (eventRecord false w i (decide (i ≠ 0)))

/-- `on_repeat(w)`: the counter goes up before the code is looked up, and an index of the excluded range is
not executed (42_interpreter.md R204, R205). -/
def onRepeat (w : CodeWord) (s : State) : State :=
  let i := lookupIndex s.params w
  let s1 := s.withRep (satInc8 s.ds.rep)
  if suppressed s.params i then s1.withEvt (eventRecord true w i false)
  else (executeIndex i s1).withEvt (eventRecord true w i (decide (i ≠ 0)))

/-- The interpreter executes a dispatch in the cycle it is produced (42_interpreter.md R200, 41_decoder.md R173). -/
def interpret (e : Event) (s : State) : State :=
  match e with
  | .receive w => onReceive w s
  | .repeated w => onRepeat w s

/-! ## Meanings -/

/-- CMD_RECEIVE (42_interpreter.md R203). -/
def execCmdReceive (w : CodeWord) (s : State) : Host.Outcome State Fault Refusal := .next (onReceive w s)

/-- CMD_REPEAT (42_interpreter.md R204). -/
def execCmdRepeat (w : CodeWord) (s : State) : Host.Outcome State Fault Refusal := .next (onRepeat w s)

end Sys2Proof.Machine
end

