-- ==== Sys2Proof/Machine/Decoder.lean ====
section
/-! DEFINITION. The Remote Decoder's transition function (41_decoder.md R166 to R173) and the meaning of
DEC_EDGE (R165). -/

namespace Sys2Proof.Machine

open Sys2Proof

/-- Step (1) of the decoder step, the long-gap rule (41_decoder.md R167). -/
def longGapRule (p : Params) (lv : Bool) (t : Ticks) (d : DecoderState) : DecoderState :=
  if isLongGap p lv t then { d with pos := 0, armed := false } else d

/-- The header test of step (2) (41_decoder.md R168). -/
def isHeader (p : Params) (t : Ticks) (d : DecoderState) : Bool := decide (d.pos = 1) && exceeds t p.tHdrHi

/-- The repeat marker test of step (2), before DS.DONE is asked (41_decoder.md R169). -/
def isRepeatMarker (p : Params) (t : Ticks) (d : DecoderState) : Bool :=
  decide (d.pos = 1) && !exceeds t p.tHdrHi && exceeds t p.tHdrLo

/-- The header rule of step (2): arm, clear the code and the fully-decoded flag (41_decoder.md R168). -/
def headerRule (p : Params) (t : Ticks) (d : DecoderState) : DecoderState :=
  if isHeader p t d then { d with armed := true, code := 0, done := false } else d

/-- The repeat rule of step (2): a dispatch only while DS.DONE = 1; no write (41_decoder.md R169). -/
def repeatRule (p : Params) (t : Ticks) (d : DecoderState) : Option Event :=
  if isRepeatMarker p t d && d.done then some (.repeated d.last) else none

/-- DS.CODE with a new bit in bit 0, bit 15 lost (41_decoder.md R170, 20_memory.md R63). -/
def shiftIn (code : CodeWord) (bit : Bool) : CodeWord := (code <<< 1) ||| (BitVec.ofBool bit).zeroExtend 16

/-- Step (3), the shift rule: while armed, a falling edge shifts one bit (41_decoder.md R170). -/
def shiftRule (p : Params) (lv : Bool) (t : Ticks) (d : DecoderState) : DecoderState :=
  if d.armed && !lv then { d with code := shiftIn d.code (exceeds t p.tShort) } else d

/-- The state after step (4), the completion rule: latch, set DONE, disarm (41_decoder.md R171). -/
def completionRule (p : Params) (d : DecoderState) : DecoderState :=
  if isComplete p d then { d with last := d.code, done := true, armed := false } else d

/-- The dispatch of step (4), if it completes (41_decoder.md R171). -/
def completionEvent (p : Params) (d : DecoderState) : Option Event :=
  if isComplete p d then some (.receive d.code) else none

/-- Step (5), the count rule, modulo 256 (41_decoder.md R172). -/
def countRule (d : DecoderState) : DecoderState := { d with pos := inc8 d.pos }

/-- `dec_step(lv, t)`: the five steps in order, each seeing the writes of the earlier ones (41_decoder.md R166). -/
def decStep (p : Params) (lv : Bool) (t : Ticks) (d : DecoderState) : DecoderState × Option Event :=
  let d1 := longGapRule p lv t d
  let d3 := shiftRule p lv t (headerRule p t d1)
  (countRule (completionRule p d3), (completionEvent p d3).or (repeatRule p t d1))

/-- One decoder invocation and, if it dispatches, the interpreter in the same cycle (41_decoder.md R173). -/
def runDecoder (lv : Bool) (t : Ticks) (s : State) : State :=
  match decStep s.params lv t s.ds with
  | (d, none) => s.withDs d
  | (d, some e) => interpret e (s.withDs d)

/-- DEC_EDGE: one synthetic edge; FE and ENC are not touched (41_decoder.md R165). -/
def execDecEdge (lv : Bool) (t : Ticks) (s : State) : Host.Outcome State Fault Refusal :=
  .next (runDecoder lv t s)

end Sys2Proof.Machine
end

