-- ==== Sys2Proof/Machine/FrontEnd.lean ====
section
/-! DEFINITION. The capture front end (41_decoder.md R160 to R163): the synchroniser, the tick counter, the
pending edge, and the dispatch of a pin edge. -/

namespace Sys2Proof.Machine

open Sys2Proof

/-- The synchroniser stages load every cycle, in reset too (10_state.md R38). -/
def synchronise (irIn : Bool) (f : FrontEnd) : FrontEnd := { f with s1 := irIn, s2 := f.s1, prev := f.s2 }

/-- One cycle of tick counting (41_decoder.md R161). -/
def countTick (p : Params) (f : FrontEnd) : FrontEnd :=
  if f.presc = p.tickDiv - 1 then { f with presc := 0, ticks := satInc16 f.ticks }
  else { f with presc := f.presc + 1 }

/-- A dispatch resets the counters and clears the pending edge (41_decoder.md R162). -/
def restartTicks (f : FrontEnd) : FrontEnd := { f with ticks := 0, presc := 0, pend := false }

/-- An edge detected in a masked cycle becomes pending; further ones are lost (41_decoder.md R163, R164). -/
def pendEdge (masked edge : Bool) (f : FrontEnd) : FrontEnd := { f with pend := f.pend || (masked && edge) }

/-- The front end's clock edge in a cycle without reset (41_decoder.md R160 to R163). -/
def clockFrontEnd (irIn : Bool) (s : State) : FrontEnd :=
  if pinDispatch s then synchronise irIn (restartTicks s.fe)
  else synchronise irIn (countTick s.params (pendEdge (captureMasked s) (edgeDetected s) s.fe))

/-- The dispatch of a pin edge: `dec_step(lv = FE.S2, t = FE.TICKS)` of the front end `f` as it stood in the
cycle (41_decoder.md R162). -/
def dispatchPin (f : FrontEnd) (s : State) : State := runDecoder f.s2 f.ticks s

end Sys2Proof.Machine
end

