-- ==== Sys2Proof/Machine/Encoder.lean ====
section
/-! DEFINITION. The Signal Encoder and Pixel Writer (40_encoder.md): waveforms, driving the wire, and the
meanings of SEND_BYTE, SEND_PIXEL, SEND_FRAME and SEND_RESET. -/

namespace Sys2Proof.Machine

open Sys2Proof

/-! ## Waveforms -/

/-- `scale(b, s)` = (b * s) div 256 (40_encoder.md R122). -/
def scale (b s : Byte) : Byte := BitVec.ofNat 8 (b.toNat * s.toNat / 256)

/-- A segment no cycle of which has been driven. -/
def freshSegment (level : Bool) (cycles : Nat) (tag : Tag) : Segment where
  level := level
  cycles := cycles
  tag := tag
  first := true

/-- The pulse of a bit: one high then one low segment (40_encoder.md R120), inside a pixel window (R121). -/
def pulse (p : Params) (v : Bool) : List Segment :=
  [freshSegment true (if v then p.t1h else p.t0h) .pxIn, freshSegment false (if v then p.t1l else p.t0l) .pxIn]

/-- The pulses of the low `n` bits of a byte, most significant first (20_memory.md R62). -/
def bitsWave (p : Params) (v : Byte) : Nat → List Segment
  | 0 => []
  | n + 1 => pulse p (v.getLsbD n) ++ bitsWave p v n

/-- `byte_wave(b, s)`: eight pulses, bit 7 of the scaled byte first (40_encoder.md R124). -/
def byteWave (p : Params) (b s : Byte) : List Segment := bitsWave p (scale b s) 8

/-- A pixel window: its first segment is tagged PX_START (40_encoder.md R121). -/
def openWindow : List Segment → List Segment
  | [] => []
  | g :: rest => { g with tag := .pxStart } :: rest

/-- `pixel_wave(c, s)`: the channels in wire order green, red, blue, white, as one window (40_encoder.md R125). -/
def pixelWave (p : Params) (c : Color) (s : Byte) : List Segment :=
  openWindow (byteWave p (green c) s ++ byteWave p (red c) s ++ byteWave p (blue c) s ++ byteWave p (white c) s)

/-- `reset_wave`: T_RST low cycles outside any window (40_encoder.md R126). -/
def resetWave (p : Params) : List Segment := [freshSegment false p.tRst .none]

/-- The windows of a list of pixels, in order and with no gap (40_encoder.md R127). -/
def pixelsWave (p : Params) (s : Byte) : List Color → List Segment
  | [] => []
  | c :: rest => pixelWave p c s ++ pixelsWave p s rest

/-- `frame_wave(px, s)`: the pixels in index order, then the reset code (40_encoder.md R127). -/
def frameWave (p : Params) (px : List Color) (s : Byte) : List Segment := pixelsWave p s px ++ resetWave p

/-- The seconds that `d` cycles last, d / F_CLK; no rule of the block reads it (70_reset_and_hazards.md R303). -/
def secondsOf (p : Params) (d : Nat) : Rat := mkRat d p.fClk

/-- The seconds a tick lasts (70_reset_and_hazards.md R303). -/
def tickSeconds (p : Params) : Rat := secondsOf p p.tickDiv

/-! ## Driving the wire -/

/-- The level of `led_dout`: of the head segment, or 0 when ENC.WAVE is empty (10_state.md R42, 40_encoder.md R131). -/
def ledLevel : List Segment → Bool
  | [] => false
  | g :: _ => g.level

/-- One clock edge of the encoder: the head count decreases by 1, and the head is dropped at 0 (10_state.md R42). -/
def tickWave : List Segment → List Segment
  | [] => []
  | g :: rest => if g.cycles ≤ 1 then rest else { g with cycles := g.cycles - 1, first := false } :: rest

/-- Start of a waveform: it replaces what remains of the last one (40_encoder.md R129). -/
def startWave (w : List Segment) (s : State) : State := s.withWave w

/-! ## Commands

The meanings are those of an accepted word; a word is accepted only while the encoder is free (40_encoder.md
R130), which `ready` decides before a meaning runs. -/

/-- SEND_BYTE (40_encoder.md R133). -/
def execSendByte (b s : Byte) (st : State) : Host.Outcome State Fault Refusal :=
  .next (startWave (openWindow (byteWave st.params b s)) st)

/-- SEND_PIXEL (40_encoder.md R134). -/
def execSendPixel (c : Color) (s : Byte) (st : State) : Host.Outcome State Fault Refusal :=
  .next (startWave (pixelWave st.params c s) st)

/-- SEND_FRAME (40_encoder.md R135). -/
def execSendFrame (c : Color) (s : Byte) (st : State) : Host.Outcome State Fault Refusal :=
  .next (startWave (frameWave st.params (List.replicate st.params.nPix c) s) st)

/-- SEND_RESET (40_encoder.md R136). -/
def execSendReset (st : State) : Host.Outcome State Fault Refusal :=
  .next (startWave (resetWave st.params) st)

end Sys2Proof.Machine
end

