-- ==== Sys2Proof/Machine/Render.lean ====
section
/-! DEFINITION. The render step (43_render.md): pixel colors from a snapshot of the Render State, the blend, the
countdown, and the meaning of FRAME_TICK. -/

namespace Sys2Proof.Machine

open Sys2Proof

/-- `bl(a, b)` at weight `cd`: (a * cd + b * (255 - cd)) div 255 (43_render.md R243). -/
def blendChannel (a b cd : Byte) : Byte :=
  BitVec.ofNat 8 ((a.toNat * cd.toNat + b.toNat * (255 - cd.toNat)) / 255)

/-- `blend(p, q, cd)`, channel by channel (43_render.md R243). -/
def blend (p q : Color) (cd : Byte) : Color :=
  packColor (blendChannel (red p) (red q) cd) (blendChannel (green p) (green q) cd)
    (blendChannel (blue p) (blue q) cd) (blendChannel (white p) (white q) cd)

/-- `pixel_color(snap, i)` (43_render.md R242, R245). -/
def pixelColor (p : Params) (snap : RenderState) (i : Nat) : Color :=
  if snap.run = false then 0x00000000
  else if snap.cd = 0 then patternColor p snap.mode snap.color i
  else blend (patternColor p snap.pmode snap.pcolor i) (patternColor p snap.mode snap.color i) snap.cd

/-- The pixel colors of a frame, in index order (43_render.md R240). -/
def framePixels (p : Params) (snap : RenderState) : List Color :=
  (List.range p.nPix).map (pixelColor p snap)

/-- The countdown after a frame (43_render.md R246). -/
def countDown (p : Params) (rs : RenderState) : RenderState := { rs with cd := satSub8 rs.cd p.cdStep }

/-- FRAME_TICK: the frame is computed from the Render State as it stands (R241), then RS.CD goes down (43_render.md R240). -/
def execFrameTick (s : State) : Host.Outcome State Fault Refusal :=
  .next ((startWave (frameWave s.params (framePixels s.params s.rs) s.rs.bright) s).withRs
    (countDown s.params s.rs))

end Sys2Proof.Machine
end

