-- ==== Sys2Proof/Machine/Port.lean ====
section
/-! DEFINITION. The ports of the block (10_state.md R45, R46) and the command port's handshake (30_encoding.md
R80, R89). -/

namespace Sys2Proof.Machine

open Sys2Proof

/-! ## Inputs -/

/-- The input ports of this cycle: scripted, or free when the script has ended (00_scope.md R8; log 2). -/
def currentInput (s : State) : CycleIn :=
  match s.script with
  | [] => Config.freeInput s.cycle
  | c :: _ => c

/-- `rst` in this cycle. -/
def rstIn (s : State) : Bool := (currentInput s).rst

/-- `cmd_valid` in this cycle. -/
def cmdValid (s : State) : Bool :=
  match (currentInput s).host with
  | .idle _ => false
  | .word _ => true
  | .stream => !s.stream.isEmpty

/-- `cmd_word` in this cycle. -/
def cmdWord (s : State) : CommandWord :=
  match (currentInput s).host with
  | .idle w => w
  | .word w => w
  | .stream => s.stream.headD 0

/-! ## Handshake -/

/-- Readiness for what a word decodes to, in a cycle without reset (30_encoding.md R89). No command word decodes to
an action kind. -/
def ready (r : Except DecodeError Instr) (s : State) : Bool :=
  match r with
  | .error _ => true
  | .ok .nop => true
  | .ok (.sendByte _ _) => encoderFree s
  | .ok (.sendPixel _ _) => encoderFree s
  | .ok (.sendFrame _ _) => encoderFree s
  | .ok .sendReset => encoderFree s
  | .ok .frameTick => encoderFree s && !pinDispatch s
  | .ok (.decEdge _ _) => !pinDispatch s
  | .ok (.cmdReceive _) => !pinDispatch s
  | .ok (.cmdRepeat _) => !pinDispatch s
  | .ok .aNop | .ok .aPower | .ok .aBrightUp | .ok .aBrightDown | .ok .aSpeedUp | .ok .aSpeedDown
  | .ok (.aSelect _ _ _ _) => false

/-- `cmd_ready` in this cycle (30_encoding.md R80, R89). -/
def cmdReady (s : State) : Bool := !rstIn s && ready (decodeCommand (cmdWord s)) s

/-- The word presented in this cycle is accepted (30_encoding.md R80). -/
def cmdAccepted (s : State) : Bool := cmdValid s && cmdReady s

/-- The host's command stream after this cycle: its head leaves it when it is accepted (10_state.md R21). -/
def streamAfter (s : State) : List CommandWord :=
  match (currentInput s).host with
  | .idle _ => s.stream
  | .word _ => s.stream
  | .stream => if cmdAccepted s then s.stream.tail else s.stream

/-- The outside world moves on by one cycle. -/
def passCycle (s : State) : State := s.withWorld s.script.tail (streamAfter s) (s.cycle + 1)

/-! ## Outputs -/

/-- The output ports (10_state.md R45). -/
structure Outputs where
  cmdReady : Bool
  ledDout : Bool
  stRun : Bool
  stBright : Byte
  stSpeed : Byte
  stMode : ModeTag
  stColor : Color
  stPmode : ModeTag
  stPcolor : Color
  stCd : Byte
  stPos : Byte
  stCode : CodeWord
  stLast : CodeWord
  stDone : Bool
  stArmed : Bool
  stRep : Byte
  stTicks : Ticks
  stPend : Bool
  stBusy : Bool
  stErr : Bool
  evtValid : Bool
  evtKind : Bool
  evtCode : CodeWord
  evtIndex : CmdIndex
  evtExec : Bool
  deriving DecidableEq, Repr

/-- `led_dout` in this cycle (10_state.md R42). -/
def ledDout (s : State) : Bool := ledLevel s.enc.wave

/-- What the output ports show in this cycle; reading them changes nothing (10_state.md R46, 20_memory.md R69). -/
def outputs (s : State) : Outputs where
  cmdReady := cmdReady s
  ledDout := ledDout s
  stRun := s.rs.run
  stBright := s.rs.bright
  stSpeed := s.rs.speed
  stMode := s.rs.mode
  stColor := s.rs.color
  stPmode := s.rs.pmode
  stPcolor := s.rs.pcolor
  stCd := s.rs.cd
  stPos := s.ds.pos
  stCode := s.ds.code
  stLast := s.ds.last
  stDone := s.ds.done
  stArmed := s.ds.armed
  stRep := s.ds.rep
  stTicks := s.fe.ticks
  stPend := s.fe.pend
  stBusy := encoderBusy s
  stErr := s.err
  evtValid := s.evt.valid
  evtKind := s.evt.kind
  evtCode := s.evt.code
  evtIndex := s.evt.index
  evtExec := s.evt.exec

/-! ## The end of a run (70_reset_and_hazards.md R306) -/

/-- The host still has a word to present, in this cycle or a later one: the stream holds one, or the script does. -/
def wordsAhead (s : State) : Bool :=
  !s.stream.isEmpty ||
    s.script.any (fun c =>
      match c.host with
      | .idle _ => false
      | .word _ => true
      | .stream => false)

/-- The encoder is idle, no edge is pending and the pin has kept its level for 3 cycles. DESIGN CHOICE (log 13): R306 does
not say which 3 cycles; these are the 3 before this one, whose levels the synchroniser holds, and `ir_in` of this cycle itself
is not read. -/
def settled (s : State) : Bool :=
  !encoderBusy s && !s.fe.pend && (s.fe.s1 == s.fe.s2) && (s.fe.s2 == s.fe.prev)

/-- The program that `script` and `stream` hold is over in this cycle. DESIGN CHOICE (log 13): a scripted word counts as
ahead until its cycle has passed, accepted or not, and the free inputs past the script belong to no program. -/
def endOfRun (s : State) : Bool := !wordsAhead s && settled s

/-- `σ n` is the end state of the run `σ 0`, …, `σ N`: the first settled cycle after the last accepted word, legal or
not, and (log 13) the first settled cycle at all when none is accepted. -/
def EndStateAt (σ : Nat → State) (N n : Nat) : Prop :=
  n ≤ N ∧ settled (σ n) = true ∧ (∀ j, n ≤ j → j ≤ N → cmdAccepted (σ j) = false) ∧
    ∀ m < n, settled (σ m) = true → ∃ j, m ≤ j ∧ j ≤ N ∧ cmdAccepted (σ j) = true

/-! ## A reader's view of the decoder -/

/-- The conceptual states of the decoder (10_state.md R37); no rule reads them. -/
inductive DecoderView where
  | idle | headerSeen | receivingBits | complete
  deriving DecidableEq, Repr

/-- The view of a decoder state (10_state.md R37); `complete` is not a state but an invocation. R37 names no view of
an armed decoder with DS.POS 0 or 1: DESIGN CHOICE (log 14), the model answers `receivingBits` there. From reset no
cycle leads to such a state (`decoderView_of_sound`). -/
def decoderView (d : DecoderState) : DecoderView :=
  if d.armed = false then .idle
  else if d.pos = 2 then .headerSeen
  else .receivingBits

/-- The view of an invocation: `complete` when it fires the completion rule (10_state.md R37). Of other invocations
R37 says nothing: DESIGN CHOICE (log 14), the model takes the view of the state they leave. -/
def invocationView (p : Params) (lv : Bool) (t : Ticks) (d : DecoderState) : DecoderView :=
  if isComplete p (shiftRule p lv t (headerRule p t (longGapRule p lv t d))) then .complete
  else decoderView (decStep p lv t d).1

end Sys2Proof.Machine
end

