-- ==== Sys2Proof/Machine/Cycle.lean ====
section
/-! DEFINITION. What one clock cycle does besides the accepted operation (00_scope.md R7): the clock edge of
the front end and the encoder, the dispatch of a pin edge, and reset (70_reset_and_hazards.md R290). -/

namespace Sys2Proof.Machine

open Sys2Proof

/-- The clock edge without any dispatch or operation: the front end and the encoder move on, evt_valid falls
(10_state.md R44, 42_interpreter.md R200), and so does the outside world. -/
def clockEdge (s : State) : State :=
  (((passCycle s).withFe (clockFrontEnd (currentInput s).irIn s)).withWave (tickWave s.enc.wave)).withEvt
    { s.evt with valid := false }

/-- All a cycle without reset does besides the accepted operation: the clock edge and, when one is due, the
dispatch of the pin edge. An accepted operation reads and writes parts this leaves alone, but for ENC.WAVE, which it replaces
(20_memory.md R65, 60_exceptions.md R268). -/
def advance (s : State) : State :=
  if pinDispatch s then dispatchPin s.fe (clockEdge s) else clockEdge s

/-- A cycle with `rst = 1`: every field takes its reset value, but the synchroniser loads from the pin; no command
is accepted and no edge is dispatched (70_reset_and_hazards.md R290). -/
def resetCycle (s : State) : State :=
  { passCycle s with
    rs := RenderState.atReset s.params
    ds := DecoderState.atReset
    fe := FrontEnd.atReset (currentInput s).irIn s.fe.s1 s.fe.s2
    enc := Encoder.atReset
    err := false
    evt := EventRecord.atReset }

/-! ## Placing an operation where the next cycle runs it -/

/-- Parameters whose only table entry has code word 0x0000 and the descriptor `d`. -/
def Params.withOnlyEntry (p : Params) (d : Descriptor) : Params :=
  { p with nCmd := 1, codeTable := [0x0000], action := [d] }

theorem Params.withOnlyEntry_wellFormed {p : Params} (hp : p.WellFormed) {d : Descriptor}
    (hd : descriptorDefined d = true) : (Params.withOnlyEntry p d).WellFormed :=
  ⟨hp.1, hp.2.1, (by decide : (1 : Nat) ≤ 255), rfl, rfl,
    (by simpa [Params.withOnlyEntry] using hd)⟩

/-- The machine with `w` on the command port in this cycle, in place of what the host and `rst` drive there. -/
def presentWord (w : CommandWord) (s : State) : State :=
  { s with script := { rst := false, irIn := (match s.script with | [] => s.fe.s1 | c :: _ => c.irIn),
                       host := .word w } :: s.script.tail }

/-- The machine with nothing in the way of the word `w`: when it would not be ready, the encoder is idle and no
edge is detected or pending (30_encoding.md R89). -/
def makeReady (w : CommandWord) (s : State) : State :=
  if ready (decodeCommand w) s then s
  else { s with enc := { wave := [] }, fe := { s.fe with prev := s.fe.s2, pend := false } }

/-- The machine whose next cycle accepts the command word `w`. -/
def placeCommand (w : CommandWord) (s : State) : State := presentWord w (makeReady w s)

/-- The machine whose next cycle executes the descriptor `d`, as the only table entry, on the receive path; the
same machine when `d` is undefined, since no machine has such an entry (00_scope.md R10). -/
def placeDescriptor (d : Descriptor) (s : State) : State :=
  if h : descriptorDefined d = true then
    placeCommand 0x1100000000000000
      { s with cfg := ⟨Params.withOnlyEntry s.cfg.val d, Params.withOnlyEntry_wellFormed s.cfg.property h⟩ }
  else s

end Sys2Proof.Machine
end

