-- ==== Sys2Proof/Machine/Dispatch.lean ====
section
/-! DEFINITION. The one dispatch from an operation to its meaning. -/

namespace Sys2Proof.Machine

open Sys2Proof

def exec (i : Instr) (s : State) : Host.Outcome State Fault Refusal :=
  match i with
  -- 44_control.md
  | .nop => Sys2Proof.Machine.execNop s
  -- 40_encoder.md
  | .sendByte b v => Sys2Proof.Machine.execSendByte b v s
  | .sendPixel c v => Sys2Proof.Machine.execSendPixel c v s
  | .sendFrame c v => Sys2Proof.Machine.execSendFrame c v s
  | .sendReset => Sys2Proof.Machine.execSendReset s
  -- 43_render.md
  | .frameTick => Sys2Proof.Machine.execFrameTick s
  -- 41_decoder.md
  | .decEdge lv t => Sys2Proof.Machine.execDecEdge lv t s
  -- 42_interpreter.md
  | .cmdReceive w => Sys2Proof.Machine.execCmdReceive w s
  | .cmdRepeat w => Sys2Proof.Machine.execCmdRepeat w s
  | .aNop => Sys2Proof.Machine.execANop s
  | .aPower => Sys2Proof.Machine.execAPower s
  | .aBrightUp => Sys2Proof.Machine.execABrightUp s
  | .aBrightDown => Sys2Proof.Machine.execABrightDown s
  | .aSpeedUp => Sys2Proof.Machine.execASpeedUp s
  | .aSpeedDown => Sys2Proof.Machine.execASpeedDown s
  | .aSelect km kc mode color => Sys2Proof.Machine.execASelect km kc mode color s

end Sys2Proof.Machine
end

