-- ==== Sys2Proof/Machine/Step.lean ====
section
/-! DEFINITION. One step is one clock cycle (00_scope.md R8): reset, or the cycle's own work and then the
accepted command word, whose writes land at the same clock edge (20_memory.md R64). -/

namespace Sys2Proof.Machine

open Sys2Proof

/-- The effect of an accepted command word on top of the cycle's own work `s` (30_encoding.md R88, 60_exceptions.md R261). -/
def runWord (w : CommandWord) (s : State) : Host.Outcome State Fault Refusal :=
  match decodeCommand w with
  | .error _ => .next (raiseIllegalCommand s)
  | .ok i => exec i s

/-- One clock cycle. -/
def step (s : State) : Host.Outcome State Fault Refusal :=
  if rstIn s then .next (resetCycle s)
  else if cmdAccepted s then runWord (cmdWord s) (advance s)
  else .next (advance s)

/-- The machine whose next step runs the instruction in the low `nbits` bits of `w`: a command word on the command
port, or a descriptor that the receive path executes (log 5). -/
def State.withFetchWord (s : State) (nbits w : Nat) : State :=
  if nbits = 48 then placeDescriptor (BitVec.ofNat 48 w) s
  else placeCommand (BitVec.ofNat 64 w) s

end Sys2Proof.Machine
end

