-- ==== Sys2Proof/Machine/Anomaly.lean ====
section
/-! DEFINITION. The anomalies of 60_exceptions.md R262, as a view of a cycle: which of them occur in it. The block
stores none of them; only ERR records the first (R260). -/

namespace Sys2Proof.Machine

open Sys2Proof

/-- The conditions of 60_exceptions.md R262. -/
inductive Anomaly where
  | illegalCmd | unrecognisedCode | malformedFrame | saturation | repeatSuppressed
  | orphanRepeat | lostEdge | mistimedEdge | tickSaturation | notReady
  deriving DecidableEq, Repr

/-- The code column of 60_exceptions.md R262. -/
def Anomaly.code : Anomaly → Nat
  | .illegalCmd => 1
  | .unrecognisedCode => 2
  | .malformedFrame => 3
  | .saturation => 4
  | .repeatSuppressed => 5
  | .orphanRepeat => 6
  | .lostEdge => 7
  | .mistimedEdge => 8
  | .tickSaturation => 9
  | .notReady => 10

/-- Whether the block keeps a record: the kind column of 60_exceptions.md R262. -/
def Anomaly.recorded : Anomaly → Bool
  | .illegalCmd => true
  | .unrecognisedCode | .malformedFrame | .saturation | .repeatSuppressed | .orphanRepeat | .lostEdge
  | .mistimedEdge | .tickSaturation | .notReady => false

/-- The list with `a` when `b` holds. -/
def noteWhen (b : Bool) (a : Anomaly) : List Anomaly := if b then [a] else []

/-- Whether an action's result is clamped (60_exceptions.md R262 code 4). -/
def actionSaturates (rs : RenderState) (step : Byte) : Instr → Bool
  | .aBrightUp => decide (255 < rs.bright.toNat + step.toNat)
  | .aBrightDown => decide (rs.bright.toNat < step.toNat)
  | .aSpeedUp => decide (255 < rs.speed.toNat + step.toNat)
  | .aSpeedDown => decide (rs.speed.toNat < step.toNat)
  | .aNop | .aPower | .aSelect _ _ _ _ => false
  | .nop | .sendByte _ _ | .sendPixel _ _ | .sendFrame _ _ | .sendReset | .frameTick
  | .decEdge _ _ | .cmdReceive _ | .cmdRepeat _ => false

/-- The anomalies of an interpreter execution (60_exceptions.md R262 codes 2, 4 and 5). -/
def eventAnomalies (p : Params) (rs : RenderState) (rep : Byte) (e : Event) : List Anomaly :=
  match e with
  | .receive w =>
    noteWhen (decide (lookupIndex p w = 0)) .unrecognisedCode ++
      noteWhen (((actionAt p (lookupIndex p w)).map (actionSaturates rs 0)).getD false) .saturation
  | .repeated w =>
    noteWhen (decide (lookupIndex p w = 0)) .unrecognisedCode ++
      noteWhen (decide (rep = 255) || (!suppressed p (lookupIndex p w) &&
        ((actionAt p (lookupIndex p w)).map (actionSaturates rs (satInc8 rep))).getD false)) .saturation ++
      noteWhen (suppressed p (lookupIndex p w)) .repeatSuppressed

/-- The anomalies of a decoder invocation (60_exceptions.md R262 codes 3 and 6), its dispatch included. -/
def edgeAnomalies (lv : Bool) (t : Ticks) (s : State) : List Anomaly :=
  noteWhen (isLongGap s.params lv t && s.ds.armed) .malformedFrame ++
    noteWhen (isRepeatMarker s.params t (longGapRule s.params lv t s.ds) && !s.ds.done) .orphanRepeat ++
    (match (decStep s.params lv t s.ds).2 with
      | none => []
      | some e => eventAnomalies s.params s.rs s.ds.rep e)

/-- The anomalies of the capture in a cycle (60_exceptions.md R262 codes 7 to 9). -/
def captureAnomalies (s : State) : List Anomaly :=
  noteWhen (edgeDetected s && s.fe.pend) .lostEdge ++
    noteWhen (pinDispatch s && s.fe.pend) .mistimedEdge ++
    noteWhen (pinDispatch s && decide (s.fe.ticks = 65535)) .tickSaturation

/-- The anomalies of an accepted word (60_exceptions.md R262). -/
def wordAnomalies (w : CommandWord) (s : State) : List Anomaly :=
  match decodeCommand w with
  | .error _ => [.illegalCmd]
  | .ok (.cmdReceive c) => eventAnomalies s.params s.rs s.ds.rep (.receive c)
  | .ok (.cmdRepeat c) => eventAnomalies s.params s.rs s.ds.rep (.repeated c)
  | .ok (.decEdge lv t) => edgeAnomalies lv t s
  | .ok .frameTick => noteWhen (decide (s.rs.cd.toNat < s.params.cdStep.toNat)) .saturation
  | .ok .nop | .ok (.sendByte _ _) | .ok (.sendPixel _ _) | .ok (.sendFrame _ _) | .ok .sendReset => []
  | .ok .aNop | .ok .aPower | .ok .aBrightUp | .ok .aBrightDown | .ok .aSpeedUp | .ok .aSpeedDown
  | .ok (.aSelect _ _ _ _) => []

/-- The anomalies of this cycle (60_exceptions.md R262). Reset leaves no edge and no command (R268), but a word
presented in it meets cmd_ready = 0 (30_encoding.md R80). -/
def cycleAnomalies (s : State) : List Anomaly :=
  if rstIn s then noteWhen (cmdValid s) .notReady
  else
    captureAnomalies s ++
      (if pinDispatch s then edgeAnomalies s.fe.s2 s.fe.ticks s else []) ++
      (if cmdAccepted s then wordAnomalies (cmdWord s) s else noteWhen (cmdValid s) .notReady)

end Sys2Proof.Machine
end

