-- ==== Sys2Proof/Machine/Assembler.lean ====
section
/-! DEFINITION. The assembler syntax (30_encoding.md R99) and the pseudo-instructions (R100): text to operations,
operations to text, and a program to the host's command stream. -/

namespace Sys2Proof.Machine

open Sys2Proof

/-! ## Text of operations (30_encoding.md R99) -/

/-- The text of an operation: mnemonic in lower case, operands separated by commas, numbers in decimal; an action in
the descriptor syntax (30_encoding.md R99). -/
def asmText : Instr → String
  | .nop => "nop"
  | .sendByte b s => "send.byte " ++ b.toNat.repr ++ ", " ++ s.toNat.repr
  | .sendPixel c s => "send.pixel " ++ c.toNat.repr ++ ", " ++ s.toNat.repr
  | .sendFrame c s => "send.frame " ++ c.toNat.repr ++ ", " ++ s.toNat.repr
  | .sendReset => "send.reset"
  | .frameTick => "frame.tick"
  | .decEdge lv t => "dec.edge " ++ (if lv then "1" else "0") ++ ", " ++ t.toNat.repr
  | .cmdReceive w => "cmd.receive " ++ w.toNat.repr
  | .cmdRepeat w => "cmd.repeat " ++ w.toNat.repr
  | .aNop => "nop"
  | .aPower => "power"
  | .aBrightUp => "bright.up"
  | .aBrightDown => "bright.down"
  | .aSpeedUp => "speed.up"
  | .aSpeedDown => "speed.down"
  | .aSelect km kc mode color =>
    "select mode=" ++ (if km then "keep" else mode.toNat.repr) ++
      " color=" ++ (if kc then "keep" else color.toNat.repr)

/-- The value of a digit in a base, if it is one. -/
def digitIn (base : Nat) (c : Char) : Option Nat :=
  let v :=
    if '0'.toNat ≤ c.toNat ∧ c.toNat ≤ '9'.toNat then c.toNat - '0'.toNat
    else if 'a'.toNat ≤ c.toNat ∧ c.toNat ≤ 'f'.toNat then c.toNat - 'a'.toNat + 10
    else if 'A'.toNat ≤ c.toNat ∧ c.toNat ≤ 'F'.toNat then c.toNat - 'A'.toNat + 10
    else base
  if v < base then some v else none

/-- The number a list of digits writes after `acc`. -/
def digitsFrom (base acc : Nat) : List Char → Option Nat
  | [] => some acc
  | c :: rest =>
    match digitIn base c with
    | none => none
    | some v => digitsFrom base (acc * base + v) rest

/-- A number in decimal or `0x` hex (30_encoding.md R99). -/
def readNumber : List Char → Option Nat
  | [] => none
  | '0' :: 'x' :: c :: rest => digitsFrom 16 0 (c :: rest)
  | c :: rest => digitsFrom 10 0 (c :: rest)

/-- A number that fits `n` bits. -/
def readBits (n : Nat) (cs : List Char) : Option (BitVec n) :=
  match readNumber cs with
  | none => none
  | some v => if v < 2 ^ n then some (BitVec.ofNat n v) else none

/-- The fields of a text between separators. -/
def splitAt (sep : Char) : List Char → List (List Char)
  | [] => [[]]
  | c :: rest =>
    if c = sep then [] :: splitAt sep rest
    else
      match splitAt sep rest with
      | [] => [[c]]
      | f :: fs => (c :: f) :: fs

/-- The words of a line: its fields between spaces, empty ones left out. -/
def wordsOf (line : List Char) : List (List Char) :=
  (splitAt ' ' line).filter (fun f => !f.isEmpty)

/-- The operands of a line: what follows the mnemonic, between commas, spaces left out. -/
def operandsOf (ws : List (List Char)) : List (List Char) :=
  match ws with
  | [] => []
  | _ => splitAt ',' ws.flatten

/-- The level operand of `dec.edge`, 0 or 1. -/
def readLevel (cs : List Char) : Option Bool :=
  match readNumber cs with
  | some 0 => some false
  | some 1 => some true
  | _ => none

/-- One command of the assembler syntax (30_encoding.md R99). -/
def readCommand (line : List Char) : Option Instr :=
  match wordsOf line with
  | [] => none
  | m :: ws =>
    match String.ofList m, operandsOf ws with
    | "nop", [] => some .nop
    | "send.byte", [b, s] => do pure (.sendByte (← readBits 8 b) (← readBits 8 s))
    | "send.pixel", [c, s] => do pure (.sendPixel (← readBits 32 c) (← readBits 8 s))
    | "send.frame", [c, s] => do pure (.sendFrame (← readBits 32 c) (← readBits 8 s))
    | "send.reset", [] => some .sendReset
    | "frame.tick", [] => some .frameTick
    | "dec.edge", [l, t] => do pure (.decEdge (← readLevel l) (← readBits 16 t))
    | "cmd.receive", [w] => do pure (.cmdReceive (← readBits 16 w))
    | "cmd.repeat", [w] => do pure (.cmdRepeat (← readBits 16 w))
    | _, _ => none

/-- A keep-or-value operand of `select` after its key: its keep bit and its value, 0 when kept. -/
def readKeep (n : Nat) (key : String) (cs : List Char) : Option (Bool × BitVec n) :=
  match splitAt '=' cs with
  | [k, v] =>
    if String.ofList k ≠ key then none
    else if String.ofList v = "keep" then some (true, 0)
    else (readBits n v).map (fun b => (false, b))
  | _ => none

/-- One descriptor of the descriptor syntax (30_encoding.md R99). -/
def readDescriptor (line : List Char) : Option Instr :=
  match wordsOf line with
  | [m] =>
    match String.ofList m with
    | "nop" => some .aNop
    | "power" => some .aPower
    | "bright.up" => some .aBrightUp
    | "bright.down" => some .aBrightDown
    | "speed.up" => some .aSpeedUp
    | "speed.down" => some .aSpeedDown
    | _ => none
  | [m, mode, color] =>
    if String.ofList m ≠ "select" then none
    else do
      let (km, md) ← readKeep 8 "mode" mode
      let (kc, cl) ← readKeep 32 "color" color
      pure (.aSelect km kc md cl)
  | _ => none

/-! ## Pseudo-instructions (30_encoding.md R100) -/

/-- A line of a program: a command or a pseudo-instruction (30_encoding.md R100). -/
inductive Pseudo where
  | command (i : Instr)
  | sendStrip (colors : List Color) (s : Byte)
  | press (w : CodeWord)
  | hold (w : CodeWord) (n : Nat)
  | edges (es : List (Bool × Ticks))
  deriving DecidableEq, Repr

/-- `send.strip` names one color a pixel (30_encoding.md R100). -/
def Pseudo.fits (p : Params) : Pseudo → Bool
  | .command i => i.isCommand
  | .sendStrip colors _ => colors.length == p.nPix
  | .press _ => true
  | .hold _ _ => true
  | .edges _ => true

/-- The expansion of a line (30_encoding.md R100). -/
def Pseudo.expand : Pseudo → List Instr
  | .command i => [i]
  | .sendStrip colors s => colors.map (fun c => .sendPixel c s) ++ [.sendReset]
  | .press w => [.cmdReceive w]
  | .hold w n => .cmdReceive w :: List.replicate n (.cmdRepeat w)
  | .edges es => es.map (fun e => .decEdge e.1 e.2)

/-- The command word of an operation; a descriptor is none. -/
def commandWordOf (i : Instr) : Option CommandWord :=
  match encode i with
  | .command cw => some cw
  | .descriptor _ => none

/-- The command words of a program, in order (30_encoding.md R100). -/
def assemble (prog : List Pseudo) : List CommandWord :=
  (prog.flatMap Pseudo.expand).filterMap commandWordOf

/-- The machine whose host has the program still to present, each word held until it is accepted (10_state.md R21). -/
def loadProgram (prog : List Pseudo) (s : State) : State :=
  { s with stream := s.stream ++ assemble prog }

end Sys2Proof.Machine
end

