-- ==== Sys2Proof/Safety.lean ====
section
/-! DEFINITION. The terms claims use: sound states, runs, waveforms as lists of (level, cycles), the decoder
step as sequential pseudocode, and what the interpreter does in a cycle. -/

namespace Sys2Proof.Machine

open Sys2Proof

/-! ## Sound states -/

/-- Every segment lasts at least one cycle (00_scope.md R16), and only the head can have been driven (10_state.md R42). -/
def WaveSound (w : List Segment) : Prop :=
  (∀ g ∈ w, 1 ≤ g.cycles) ∧ (∀ g ∈ w.tail, g.first = true)

/-- While armed, the decoder's counter is past the header and not past completion, and no completed code is
latched as current (10_state.md R31, R34, R35, R37). -/
def DecoderSound (p : Params) (d : DecoderState) : Prop :=
  d.armed = true → 2 ≤ d.pos.toNat ∧ d.pos.toNat ≤ p.kBits + 1 ∧ d.done = false

/-- The prescaler counts 0 to TICK_DIV - 1 (10_state.md R40), and an edge is pended only under the mask (R41). -/
def FrontEndSound (p : Params) (f : FrontEnd) : Prop :=
  f.presc < p.tickDiv ∧ (p.captureMask = .none → f.pend = false)

/-- The event record names an index of the table, and only a recognised one was executed (10_state.md R44). -/
def EventSound (p : Params) (e : EventRecord) : Prop :=
  e.index.toNat ≤ p.nCmd ∧ (e.exec = true → e.index ≠ 0)

/-- The states that cycles of the machine stay in. -/
structure Sound (s : State) : Prop where
  wave : WaveSound s.enc.wave
  decoder : DecoderSound s.params s.ds
  frontEnd : FrontEndSound s.params s.fe
  event : EventSound s.params s.evt

/-! ## Runs -/

/-- `σ 0`, `σ 1`, …, `σ n` are successive cycles. -/
def Runs (σ : Nat → State) (n : Nat) : Prop := ∀ k < n, step (σ k) = .next (σ (k + 1))

/-- The operations one after the other, each on the state the one before left. -/
def execAll : List Instr → State → Host.Outcome State Fault Refusal
  | [], s => .next s
  | i :: rest, s =>
    match exec i s with
    | .next t => execAll rest t
    | .fault f => .fault f
    | .refused r => .refused r

/-! ## What the accepted word does in a cycle -/

/-- The operation accepted in this cycle, if a legal word is (30_encoding.md R80). -/
def acceptedInstr (s : State) : Option Instr :=
  if cmdAccepted s then (decodeCommand (cmdWord s)).toOption else none

/-- An illegal word is accepted in this cycle (60_exceptions.md R261). -/
def illegalAccepted (s : State) : Bool :=
  cmdAccepted s && (decodeCommand (cmdWord s)).toOption.isNone

/-- The operations that start a waveform (40_encoder.md R129). -/
def startsWave : Instr → Bool
  | .sendByte _ _ | .sendPixel _ _ | .sendFrame _ _ | .sendReset | .frameTick => true
  | .nop | .decEdge _ _ | .cmdReceive _ | .cmdRepeat _ => false
  | .aNop | .aPower | .aBrightUp | .aBrightDown | .aSpeedUp | .aSpeedDown | .aSelect _ _ _ _ => false

/-- A waveform is started in this cycle. -/
def waveStarted (s : State) : Bool := (acceptedInstr s).any startsWave

/-- The dispatch an accepted operation gives the interpreter (42_interpreter.md R203, R204, 41_decoder.md R165). -/
def instrEvent (p : Params) (d : DecoderState) : Instr → Option Event
  | .cmdReceive w => some (.receive w)
  | .cmdRepeat w => some (.repeated w)
  | .decEdge lv t => (decStep p lv t d).2
  | .nop | .sendByte _ _ | .sendPixel _ _ | .sendFrame _ _ | .sendReset | .frameTick => none
  | .aNop | .aPower | .aBrightUp | .aBrightDown | .aSpeedUp | .aSpeedDown | .aSelect _ _ _ _ => none

/-- The dispatch the interpreter executes in a cycle without reset, if any: the pin's, or the accepted operation's
(20_memory.md R65). -/
def cycleEvent (s : State) : Option Event :=
  if pinDispatch s then (decStep s.params s.fe.s2 s.fe.ticks s.ds).2
  else (acceptedInstr s).bind (instrEvent s.params s.ds)

/-- The code word of a dispatch. -/
def Event.word : Event → CodeWord
  | .receive w => w
  | .repeated w => w

/-- evt_kind of a dispatch (42_interpreter.md R200). -/
def Event.isRepeat : Event → Bool
  | .receive _ => false
  | .repeated _ => true

/-- The action that the interpreter executes for a dispatch, if it executes one (42_interpreter.md R202 to R205). -/
def executedAction (p : Params) (e : Event) : Option Instr :=
  if e.isRepeat && suppressed p (lookupIndex p e.word) then none else actionAt p (lookupIndex p e.word)

/-- The action that the interpreter executes in a cycle without reset, if any. -/
def cycleAction (s : State) : Option Instr := (cycleEvent s).bind (executedAction s.params)

/-- The mode transition (42_interpreter.md R213). -/
def isSelect : Instr → Bool
  | .aSelect _ _ _ _ => true
  | .nop | .sendByte _ _ | .sendPixel _ _ | .sendFrame _ _ | .sendReset | .frameTick => false
  | .decEdge _ _ | .cmdReceive _ | .cmdRepeat _ => false
  | .aNop | .aPower | .aBrightUp | .aBrightDown | .aSpeedUp | .aSpeedDown => false

/-- How many of the cycles `σ 1`, …, `σ n` accept a FRAME_TICK. -/
def frameTicks (σ : Nat → State) : Nat → Nat
  | 0 => 0
  | n + 1 => frameTicks σ n + (if acceptedInstr (σ (n + 1)) = some .frameTick then 1 else 0)

/-- The adjustment `a` by `k`, clamped, took `rs` to `rs'` and wrote nothing else (42_interpreter.md R209 to
R212); of other operations it says nothing. -/
def AdjustsBy (k : Nat) (rs rs' : RenderState) (a : Instr) : Prop :=
  match a with
  | .aBrightUp => ∃ v : Byte, v.toNat = min 255 (rs.bright.toNat + k) ∧ rs' = { rs with bright := v }
  | .aBrightDown => ∃ v : Byte, v.toNat = rs.bright.toNat - k ∧ rs' = { rs with bright := v }
  | .aSpeedUp => ∃ v : Byte, v.toNat = min 255 (rs.speed.toNat + k) ∧ rs' = { rs with speed := v }
  | .aSpeedDown => ∃ v : Byte, v.toNat = rs.speed.toNat - k ∧ rs' = { rs with speed := v }
  | .nop | .sendByte _ _ | .sendPixel _ _ | .sendFrame _ _ | .sendReset | .frameTick => True
  | .decEdge _ _ | .cmdReceive _ | .cmdRepeat _ | .aNop | .aPower | .aSelect _ _ _ _ => True

/-! ## Waveforms as (level, cycles) -/

/-- The levels and durations of a waveform (00_scope.md R16). -/
def spans (w : List Segment) : List (Bool × Nat) := w.map (fun g => (g.level, g.cycles))

/-- The pulse of a bit (40_encoder.md R120). -/
def templateSpans (p : Params) (v : Bool) : List (Bool × Nat) :=
  if v then [(true, p.t1h), (false, p.t1l)] else [(true, p.t0h), (false, p.t0l)]

/-- The eight pulses of the number `v`, most significant bit first (40_encoder.md R124). -/
def byteSpans (p : Params) (v : Nat) : List (Bool × Nat) :=
  [7, 6, 5, 4, 3, 2, 1, 0].flatMap (fun i => templateSpans p (v.testBit i))

/-- The channel of a color whose lowest bit is bit `lo`, as a number (30_encoding.md R84). -/
def channelAt (c : Color) (lo : Nat) : Nat := c.toNat / 2 ^ lo % 256

/-- The pulses of a pixel: green, red, blue, white, each scaled by `s` (40_encoder.md R122, R125). -/
def pixelSpans (p : Params) (c : Color) (s : Byte) : List (Bool × Nat) :=
  [16, 24, 8, 0].flatMap (fun lo => byteSpans p (channelAt c lo * s.toNat / 256))

/-- The level of the segment covering offset `k` of a waveform, 0 past its end (40_encoder.md R129, R131). -/
def levelAt : List Segment → Nat → Bool
  | [], _ => false
  | g :: rest, k => if k < g.cycles then g.level else levelAt rest (k - g.cycles)

/-- The number of 1 bits of a byte (40_encoder.md R128). -/
def onesOf (v : Byte) : Nat := ([0, 1, 2, 3, 4, 5, 6, 7].filter (fun i => v.getLsbD i)).length

/-! ## The decoder step as written -/

/-- The pseudocode of 41_decoder.md R166, statement by statement. -/
def decStepSequential (p : Params) (lv : Bool) (t : Ticks) (d0 : DecoderState) : DecoderState × Option Event :=
  Id.run do
    let mut d := d0
    let mut ev : Option Event := none
    if lv = true ∧ p.tGap.toNat < t.toNat then
      d := { d with pos := 0, armed := false }
    if d.pos = 1 then
      if p.tHdrHi.toNat < t.toNat then
        d := { d with armed := true, code := 0, done := false }
      else if p.tHdrLo.toNat < t.toNat then
        if d.done = true then
          ev := some (.repeated d.last)
    if d.armed = true ∧ lv = false then
      d := { d with code := d.code.extractLsb' 0 15 ++ BitVec.ofBool (decide (p.tShort.toNat < t.toNat)) }
    if d.armed = true ∧ p.kBits < d.pos.toNat then
      d := { d with last := d.code, done := true, armed := false }
      ev := some (.receive d.code)
    d := { d with pos := BitVec.ofNat 8 (d.pos.toNat + 1) }
    return (d, ev)

/-- The decoder after a sequence of edges, and the dispatches in order (41_decoder.md R166). -/
def decSteps (p : Params) : List (Bool × Ticks) → DecoderState → DecoderState × List (Option Event)
  | [], d => (d, [])
  | e :: rest, d =>
    let r := decStep p e.1 e.2 d
    let r' := decSteps p rest r.1
    (r'.1, r.2 :: r'.2)

/-- The 16-bit register after shifting the bits in, in order (41_decoder.md R170). -/
def shiftAll (code : CodeWord) : List Bool → CodeWord
  | [] => code
  | b :: rest => shiftAll (shiftIn code b) rest

end Sys2Proof.Machine
end

