-- ==== Sys2Proof/Certificates/Slice0/Obligations.lean ====
section
/-! DEFINITION. The statements for the provers. Each docstring names the rule of spec/ it formalises. -/

open Sys2Proof Sys2Proof.Machine

/-! ## Encoding -/

/-- Decoding the encoding of a well-formed operation gives it back (30_encoding.md sections 2, 5 and 6). -/
def Obligations.DecodeOfEncodeIsTheInstruction : Prop :=
  ∀ i : Instr, i.wellFormed = true → decode (encode i) = .ok i

/-- Encoding what a word or descriptor decodes to gives its bits back, so no bit of it is dropped
(30_encoding.md sections 2, 5 and 6). -/
def Obligations.EncodeOfDecodeIsTheWord : Prop :=
  ∀ (e : Encoded) (i : Instr), decode e = .ok i → encode i = e ∧ i.wellFormed = true

/-- Words and descriptors that 95_test_vectors.md writes out decode to what it says they are. -/
def Obligations.WordsOfTheSpecDecode : Prop :=
  decodeCommand 0x0000000000000000 = .ok .nop ∧
  decodeCommand 0x01800000000000FF = .ok (.sendByte 0xFF 128) ∧
  decodeCommand 0x02800000FF000000 = .ok (.sendPixel 0xFF000000 128) ∧
  decodeCommand 0x0400000000000000 = .ok .sendReset ∧
  decodeCommand 0x0500000000000000 = .ok .frameTick ∧
  decodeCommand 0x1001038400000000 = .ok (.decEdge true 900) ∧
  decodeCommand 0x11001AE500000000 = .ok (.cmdReceive 0x1AE5) ∧
  decodeCommand 0x120030CF00000000 = .ok (.cmdRepeat 0x30CF) ∧
  decodeDescriptor 0x640100000000 = .ok (.aSelect false true 0x01 0x00000000) ∧
  decodeDescriptor 0x6800FF000000 = .ok (.aSelect true false 0x00 0xFF000000)

/-- A word is legal exactly when it fits one row of the match and mask table, and it fits no two
(30_encoding.md section 2). -/
def Obligations.LegalWordFitsExactlyOneRow : Prop :=
  ∀ cw : CommandWord, (∃ i, decodeCommand cw = .ok i) ↔
    ∃ o : CommandOp, cw &&& o.maskBits = o.matchBits ∧
      ∀ o' : CommandOp, cw &&& o'.maskBits = o'.matchBits → o' = o

/-- The command words of an assembled program decode, in order, to the commands it expands to; a program assembles line by
line, and each pseudo-instruction to the words of its row: send.strip to one send.pixel for each color and a send.reset, press to
a cmd.receive, hold to a cmd.receive and n times cmd.repeat, edges to one dec.edge for each pair (30_encoding.md section 6). -/
def Obligations.AssembledProgramDecodesToItsCommands : Prop :=
  (∀ (p : Params) (prog : List Pseudo), (∀ l ∈ prog, l.fits p = true) →
    (assemble prog).map decodeCommand = (prog.flatMap Pseudo.expand).map .ok) ∧
  (∀ prog rest : List Pseudo, assemble (prog ++ rest) = assemble prog ++ assemble rest) ∧
  (∀ i : Instr, i.isCommand = true → (assemble [.command i]).map decodeCommand = [.ok i]) ∧
  (∀ (colors : List Color) (v : Byte),
    (assemble [.sendStrip colors v]).map decodeCommand =
      colors.map (fun c => .ok (.sendPixel c v)) ++ [.ok .sendReset]) ∧
  (∀ w : CodeWord, (assemble [.press w]).map decodeCommand = [.ok (.cmdReceive w)]) ∧
  (∀ (w : CodeWord) (n : Nat),
    (assemble [.hold w n]).map decodeCommand = .ok (.cmdReceive w) :: List.replicate n (.ok (.cmdRepeat w))) ∧
  (∀ es : List (Bool × Ticks),
    (assemble [.edges es]).map decodeCommand = es.map (fun e => .ok (.decEdge e.1 e.2)))

/-! ## The cycle and the command port -/

/-- A cycle that accepts a word decoding to an operation is that operation on top of the cycle's own work
(30_encoding.md sections 1 and 2; that the operation comes after the cycle's own work is deduced, log 6). -/
def Obligations.StepRunsTheDecodedInstruction : Prop :=
  ∀ (s : State) (i : Instr), rstIn s = false → cmdValid s = true → decodeCommand (cmdWord s) = .ok i →
    ready (.ok i) s = true → cmdReady s = true ∧ step s = exec i (advance s)

/-- The cycle's own work when no pin edge is dispatched: the synchroniser loads, the ticks count, an edge in a
masked cycle becomes pending, the encoder's head counts down and evt_valid falls (10_state.md sections 4, 5 and 6,
41_decoder.md section 1). That script, stream and cycle move on is the model's form of the host and the pin (log 2). -/
def Obligations.CycleWithoutPinDispatch : Prop :=
  ∀ s : State, pinDispatch s = false → ∃ ticks presc,
    (if s.fe.presc = s.params.tickDiv - 1 then presc = 0 ∧ ticks.toNat = min 65535 (s.fe.ticks.toNat + 1)
      else presc = s.fe.presc + 1 ∧ ticks = s.fe.ticks) ∧
    advance s =
      { s with
        fe := { s1 := (currentInput s).irIn, s2 := s.fe.s1, prev := s.fe.s2, ticks := ticks, presc := presc,
                pend := s.fe.pend || (captureMasked s && edgeDetected s) }
        enc := { wave := tickWave s.enc.wave }
        evt := { s.evt with valid := false }
        script := s.script.tail
        stream := streamAfter s
        cycle := s.cycle + 1 }

/-- The cycle's own work when a pin edge is dispatched: the counters and the pending flag go to 0 and one decoder
invocation runs with FE.S2 and FE.TICKS (41_decoder.md section 1); the synchroniser, the encoder's head and evt_valid go on as
in every cycle (10_state.md sections 4, 5 and 6). That script, stream and cycle move on is the model's form of the host and the
pin (log 2). -/
def Obligations.CycleWithPinDispatch : Prop :=
  ∀ s : State, pinDispatch s = true →
    exec (.decEdge s.fe.s2 s.fe.ticks)
      { s with
        fe := { s1 := (currentInput s).irIn, s2 := s.fe.s1, prev := s.fe.s2, ticks := 0, presc := 0, pend := false }
        enc := { wave := tickWave s.enc.wave }
        evt := { s.evt with valid := false }
        script := s.script.tail
        stream := streamAfter s
        cycle := s.cycle + 1 } = .next (advance s)

/-- The readiness table (30_encoding.md R89). -/
def Obligations.ReadinessTable : Prop :=
  ∀ s : State, rstIn s = false →
    (cmdReady s = true ↔
      (match decodeCommand (cmdWord s) with
        | .error _ => True
        | .ok i =>
          (startsWave i = true → waveLen s.enc.wave = 0 ∨ waveLen s.enc.wave = 1) ∧
          (i = .frameTick ∨ (∃ lv t, i = .decEdge lv t) ∨ (∃ w, i = .cmdReceive w) ∨ (∃ w, i = .cmdRepeat w) →
            pinDispatch s = false)))

/-- A word presented while not ready has no effect: the cycle is the one a NOP gives (30_encoding.md section 1). -/
def Obligations.WordNotReadyHasNoEffect : Prop :=
  ∀ (s : State) (w : CommandWord), ready (decodeCommand w) s = false →
    cmdAccepted (presentWord w s) = false ∧ step (presentWord w s) = step (presentWord 0 s)

/-- A word of the host's stream leaves it exactly when it is accepted, so words are accepted in order
(20_memory.md section 4, 30_encoding.md section 1; the stream is the model's form of the host, log 2). -/
def Obligations.AcceptedWordLeavesTheStream : Prop :=
  ∀ (s t : State), rstIn s = false → (currentInput s).host = .stream → step s = .next t →
    (cmdAccepted s = true → ∃ w, s.stream = w :: t.stream ∧ cmdWord s = w) ∧
    (cmdAccepted s = false → t.stream = s.stream)

/-- An accepted illegal word is a NOP that also sets ERR, in every state and beside any pin dispatch
(60_exceptions.md section 1). -/
def Obligations.IllegalWordIsNopThatSetsErr : Prop :=
  ∀ (s : State) (w : CommandWord) (e : DecodeError), decodeCommand w = .error e →
    cmdReady (presentWord w s) = true ∧
    ∃ t, step (presentWord 0 s) = .next t ∧ step (presentWord w s) = .next { t with err := true }

/-- A word whose OP is not in the opcode map is illegal: accepted, nothing but ERR set (30_encoding.md R86). -/
def Obligations.UnassignedOpIsIllegal : Prop :=
  ∀ cw : CommandWord,
    opField cw ∉ [0x00, 0x01, 0x02, 0x03, 0x04, 0x05, 0x10, 0x11, 0x12] →
    decodeCommand cw = .error (.unassignedOp (opField cw)) ∧
    ∀ s : State, cmdReady (presentWord cw s) = true ∧
      ∃ t, step (presentWord 0 s) = .next t ∧ step (presentWord cw s) = .next { t with err := true }

/-- A word with an assigned OP and a 1 in a reserved bit is illegal: accepted, nothing but ERR set, not executed as
its OP (30_encoding.md R85). -/
def Obligations.ReservedBitIsIllegal : Prop :=
  ∀ (cw : CommandWord) (o : CommandOp), opField cw = o.code →
    (∃ k, k < 56 ∧ o.maskBits.getLsbD k = true ∧ cw.getLsbD k = true) →
    decodeCommand cw = .error (.reservedBits o.code) ∧
    ∀ s : State, cmdReady (presentWord cw s) = true ∧
      ∃ t, step (presentWord 0 s) = .next t ∧ step (presentWord cw s) = .next { t with err := true }

/-- No cycle stops: every state has a next one, and outside reset NOP is accepted (60_exceptions.md section 1). -/
def Obligations.EveryCycleHasANextState : Prop :=
  ∀ s : State, (∃ t, step s = .next t) ∧ (rstIn s = false → cmdWord s = 0 → cmdReady s = true)

/-- The configuration does not change while the block runs, and no operation writes it (00_scope.md R12). -/
def Obligations.ConfigurationIsStatic : Prop :=
  (∀ s t : State, step s = .next t → t.cfg = s.cfg) ∧
  (∀ (i : Instr) (s t : State), exec i s = .next t → t.cfg = s.cfg)

/-! ## Whole-machine rules -/

/-- Sound states stay sound in every cycle: every segment lasts a cycle, an armed decoder's count is 2 to K_BITS + 1 with
DS.DONE = 0, the prescaler is below TICK_DIV, no edge pends without the mask, and EVT names an index of the table (10_state.md
sections 3 to 6, 41_decoder.md section 2, 30_encoding.md section 4). That every segment after the head has `first` = 1 is about
the model's own flag (log 8, DEDUCED). -/
def Obligations.EveryCycleKeepsTheStateSound : Prop :=
  ∀ s t : State, Sound s → step s = .next t → Sound t

/-- The state after reset is sound, for every configuration and pin level. -/
def Obligations.ResetStateIsSound : Prop :=
  Sound State.reset ∧ ∀ (c : Config) (pin : Bool), Sound (State.afterReset c pin)

/-- ERR is set by an accepted illegal word and cleared by nothing but reset (10_state.md R43). -/
def Obligations.ErrIsStickyUntilReset : Prop :=
  (∀ s t : State, step s = .next t → t.err = (!rstIn s && (s.err || illegalAccepted s))) ∧
  State.reset.err = false

/-- In a cycle without reset, the Render State is written by FRAME_TICK (RS.CD down by CD_STEP) or by the action of the
interpreter's dispatch, run with DS.REP as the dispatch leaves it, and by nothing else. A_POWER alone changes RUN, A_BRIGHT_UP
and A_BRIGHT_DOWN alone BRIGHT, A_SPEED_UP and A_SPEED_DOWN alone SPEED, A_SELECT alone the mode and color slots, the previous ones
then holding what was current, and it sets RS.CD to 255 (10_state.md sections 2 and 8). -/
def Obligations.RenderStateWriters : Prop :=
  ∀ s t : State, rstIn s = false → step s = .next t →
    match cycleEvent s with
    | none =>
      (acceptedInstr s = some .frameTick →
        ∃ cd : Byte, cd.toNat = s.rs.cd.toNat - s.params.cdStep.toNat ∧ t.rs = { s.rs with cd := cd }) ∧
      (acceptedInstr s ≠ some .frameTick → t.rs = s.rs)
    | some e =>
      acceptedInstr s ≠ some .frameTick ∧
      (lookupIndex s.params e.word = 0 ∨
        (e.isRepeat = true ∧ s.params.exLo.toNat ≤ (lookupIndex s.params e.word).toNat ∧
          (lookupIndex s.params e.word).toNat ≤ s.params.exHi.toNat) → t.rs = s.rs) ∧
      (lookupIndex s.params e.word ≠ 0 →
        ¬ (e.isRepeat = true ∧ s.params.exLo.toNat ≤ (lookupIndex s.params e.word).toNat ∧
          (lookupIndex s.params e.word).toNat ≤ s.params.exHi.toNat) →
        ∃ (r : Byte) (d : Descriptor) (a : Instr) (u : State),
          r.toNat = (if e.isRepeat = true then min 255 (s.ds.rep.toNat + 1) else 0) ∧
          s.params.action[(lookupIndex s.params e.word).toNat - 1]? = some d ∧ decodeDescriptor d = .ok a ∧
          exec a { s with ds := { s.ds with rep := r } } = .next u ∧ t.rs = u.rs ∧
          (t.rs.run ≠ s.rs.run → a = .aPower) ∧
          (t.rs.bright ≠ s.rs.bright → a = .aBrightUp ∨ a = .aBrightDown) ∧
          (t.rs.speed ≠ s.rs.speed → a = .aSpeedUp ∨ a = .aSpeedDown) ∧
          (t.rs.mode ≠ s.rs.mode ∨ t.rs.color ≠ s.rs.color ∨ t.rs.pmode ≠ s.rs.pmode ∨
            t.rs.pcolor ≠ s.rs.pcolor ∨ t.rs.cd ≠ s.rs.cd → ∃ km kc mode color, a = .aSelect km kc mode color) ∧
          ((∃ km kc mode color, a = .aSelect km kc mode color) →
            t.rs.pmode = s.rs.mode ∧ t.rs.pcolor = s.rs.color ∧ t.rs.cd = 255))

/-- The event record shows the interpreter's execution of the cycle before, and evt_valid is 0 after any other
cycle (10_state.md section 6, 42_interpreter.md section 1). -/
def Obligations.EventRecordShowsTheDispatch : Prop :=
  ∀ s t : State, rstIn s = false → step s = .next t →
    match cycleEvent s with
    | none => t.evt = { s.evt with valid := false }
    | some e =>
      t.evt.valid = true ∧ t.evt.kind = e.isRepeat ∧ t.evt.code = e.word ∧
      t.evt.index = lookupIndex s.params e.word ∧
      (t.evt.exec = true ↔ t.evt.index ≠ 0 ∧
        (e.isRepeat = true →
          ¬ (s.params.exLo.toNat ≤ t.evt.index.toNat ∧ t.evt.index.toNat ≤ s.params.exHi.toNat)))

/-- In a cycle without reset, pin dispatch or DEC_EDGE the decoder's own fields keep their values, and DS.REP keeps
its value unless the interpreter runs (10_state.md section 8). -/
def Obligations.DecoderFieldsChangeOnlyByInvocation : Prop :=
  ∀ s t : State, rstIn s = false → step s = .next t →
    (pinDispatch s = false → (∀ lv k, acceptedInstr s ≠ some (.decEdge lv k)) →
      t.ds = { s.ds with rep := t.ds.rep }) ∧
    (cycleEvent s = none → t.ds.rep = s.ds.rep)

/-! ## Reset -/

/-- A cycle with rst = 1 accepts no command, dispatches no edge and gives every field of the block its reset value, the
synchroniser loading from the pin (70_reset_and_hazards.md section 1, 10_state.md section 9). The clauses on script, stream and
cycle, which move on or stay, are the model's form of the host and the pin (log 2), and cfg is its configuration (log 1). -/
def Obligations.ResetCycleForcesTheFields : Prop :=
  ∀ s : State, rstIn s = true → cmdReady s = false ∧
    step s = .next
      { cfg := s.cfg
        rs := { run := s.params.rstRun, bright := s.params.rstBright, speed := s.params.rstSpeed,
                mode := s.params.rstMode, color := s.params.rstColor, pmode := 0, pcolor := 0, cd := 0 }
        ds := { pos := 0, code := 0, last := 0, done := false, armed := false, rep := 0 }
        fe := { s1 := (currentInput s).irIn, s2 := s.fe.s1, prev := s.fe.s2, ticks := 0, presc := 0, pend := false }
        enc := { wave := [] }
        err := false
        evt := { valid := false, kind := false, code := 0, index := 0, exec := false }
        script := s.script.tail
        stream := s.stream
        cycle := s.cycle + 1 }

/-- A reset held for 3 cycles with a stable pin leaves the state State.afterReset, from any state before it, and then
no edge is detected (70_reset_and_hazards.md section 1). -/
def Obligations.ThreeResetCyclesReachTheResetState : Prop :=
  ∀ (σ : Nat → State) (pin : Bool), Runs σ 3 →
    (∀ k < 3, rstIn (σ k) = true ∧ (currentInput (σ k)).irIn = pin) →
    edgeDetected (σ 3) = false ∧
    σ 3 = { State.afterReset (σ 0).cfg pin with
              script := (σ 3).script, stream := (σ 3).stream, cycle := (σ 3).cycle }

/-- In the first cycle after reset led_dout is 0, ERR and evt_valid are 0, FE.TICKS is 0, no edge is dispatched, and
every command is ready (70_reset_and_hazards.md section 1). -/
def Obligations.FirstCycleAfterReset : Prop :=
  ∀ (c : Config) (pin : Bool) (cw : CommandWord),
    ledDout (State.afterReset c pin) = false ∧ encoderBusy (State.afterReset c pin) = false ∧
    pinDispatch (State.afterReset c pin) = false ∧ (State.afterReset c pin).err = false ∧
    (State.afterReset c pin).evt.valid = false ∧ (State.afterReset c pin).fe.ticks = 0 ∧
    (State.afterReset c pin).ds.done = false ∧ (State.afterReset c pin).rs.cd = 0 ∧
    ready (decodeCommand cw) (State.afterReset c pin) = true

/-! ## Encoder -/

/-- scale(b, s) is the product divided by 256, which fits 16 bits, and its properties (40_encoder.md R122, R123). -/
def Obligations.ScaleIsProductDividedBy256 : Prop :=
  (∀ b s : Byte, (scale b s).toNat = b.toNat * s.toNat / 256 ∧ b.toNat * s.toNat ≤ 65025) ∧
  (∀ b s : Byte, (scale b s).toNat ≤ b.toNat) ∧
  (∀ b s : Byte, 1 ≤ b.toNat → (scale b s).toNat < b.toNat) ∧
  (∀ b : Byte, 1 ≤ b.toNat → (scale b 255).toNat = b.toNat - 1) ∧
  (∀ s : Byte, scale 0 s = 0) ∧ (∀ b : Byte, scale b 0 = 0) ∧
  scale 255 255 = 254 ∧ scale 255 128 = 127 ∧ (∀ b : Byte, (scale b 128).toNat = b.toNat / 2)

/-- SEND_BYTE completes in every state: it writes ENC.WAVE and nothing else, exactly 8 pulses, pulse k the template of
bit 7 - k of the scaled byte (40_encoder.md R137), as one pixel window. -/
def Obligations.SendByteStartsEightPulses : Prop :=
  ∀ (b s : Byte) (st : State), ∃ w,
    exec (.sendByte b s) st = .next { st with enc := { wave := w } } ∧
    w.length = 16 ∧ spans w = byteSpans st.params (b.toNat * s.toNat / 256) ∧
    (∀ k < 8, (spans w)[2 * k]? = (templateSpans st.params ((scale b s).getLsbD (7 - k)))[0]? ∧
      (spans w)[2 * k + 1]? = (templateSpans st.params ((scale b s).getLsbD (7 - k)))[1]?) ∧
    w.map (·.tag) = .pxStart :: List.replicate 15 .pxIn

/-- SEND_PIXEL completes in every state: it writes ENC.WAVE and nothing else, the four scaled channels in wire order
green, red, blue, white, 64 segments tagged as one window (40_encoder.md R125). -/
def Obligations.SendPixelSendsGreenRedBlueWhite : Prop :=
  ∀ (c : Color) (s : Byte) (st : State),
    exec (.sendPixel c s) st = .next { st with enc := { wave := pixelWave st.params c s } } ∧
    spans (pixelWave st.params c s) = pixelSpans st.params c s ∧
    (pixelWave st.params c s).map (·.tag) = .pxStart :: List.replicate 63 .pxIn

/-- SEND_FRAME completes in every state with N_PIX copies of one pixel's window and then the reset code, and SEND_RESET
with the reset code alone, a low of T_RST cycles outside any window; each writes ENC.WAVE and nothing else
(40_encoder.md sections 1 and 3; a segment's flag `first` is the model's, log 8). -/
def Obligations.SendFrameAndSendReset : Prop :=
  ∀ (c : Color) (s : Byte) (st : State), ∃ reset : Segment,
    reset = { level := false, cycles := st.params.tRst, tag := .none, first := true } ∧
    exec (.sendFrame c s) st = .next { st with enc := { wave :=
      (List.replicate st.params.nPix (pixelWave st.params c s)).flatten ++ [reset] } } ∧
    exec .sendReset st = .next { st with enc := { wave := [reset] } }

/-- The durations of the waveforms in cycles (40_encoder.md R128). -/
def Obligations.WaveformDurations : Prop :=
  ∀ (p : Params) (s : Byte),
    waveLen (pulse p false) = p.t0h + p.t0l ∧ waveLen (pulse p true) = p.t1h + p.t1l ∧
    (∀ b, waveLen (byteWave p b s) =
      onesOf (scale b s) * (p.t1h + p.t1l) + (8 - onesOf (scale b s)) * (p.t0h + p.t0l)) ∧
    (∀ c, waveLen (pixelWave p c s) = waveLen (byteWave p (green c) s) + waveLen (byteWave p (red c) s) +
      waveLen (byteWave p (blue c) s) + waveLen (byteWave p (white c) s)) ∧
    (∀ px, waveLen (frameWave p px s) = (px.map (fun c => waveLen (pixelWave p c s))).sum + p.tRst) ∧
    (∀ tb, p.t0h + p.t0l = tb → p.t1h + p.t1l = tb →
      (∀ b, waveLen (byteWave p b s) = 8 * tb) ∧
      (∀ px, px.length = p.nPix → waveLen (frameWave p px s) = 32 * p.nPix * tb + p.tRst))

/-- A waveform started in cycle 0 and followed by no other replaces ENC.WAVE, is driven offset by offset from cycle 1 on,
led_dout is 0 after its end, and st_busy is 1 exactly while it lasts (40_encoder.md R129, R132). -/
def Obligations.WireCarriesTheStartedWaveform : Prop :=
  ∀ (σ : Nat → State) (i : Instr) (u : State) (k : Nat),
    Runs σ (k + 1) → rstIn (σ 0) = false → acceptedInstr (σ 0) = some i → startsWave i = true →
    exec i (advance (σ 0)) = .next u →
    (∀ j, 1 ≤ j → j ≤ k → rstIn (σ j) = false ∧ waveStarted (σ j) = false) →
    (σ 1).enc = u.enc ∧
      (outputs (σ (k + 1))).ledDout = levelAt u.enc.wave k ∧
      (outputs (σ (k + 1))).stBusy = decide (k < waveLen u.enc.wave) ∧
      ((outputs (σ (k + 1))).stBusy = true ↔ (σ (k + 1)).enc.wave ≠ [])

/-- In a cycle that starts no waveform the head segment loses one cycle and is dropped at 0, and an empty ENC.WAVE stays
empty; the flag `first`, the model's (log 8), is 1 in every segment of a started waveform and 0 in a head that has been
driven (10_state.md section 5). -/
def Obligations.EncoderDrivesTheHeadSegment : Prop :=
  ∀ s t : State, rstIn s = false → step s = .next t →
    (waveStarted s = true → t.enc.wave ≠ [] ∧ ∀ g ∈ t.enc.wave, g.first = true ∧ 1 ≤ g.cycles) ∧
    (waveStarted s = false →
      (s.enc.wave = [] → t.enc.wave = []) ∧
      ∀ g rest, s.enc.wave = g :: rest →
        (g.cycles ≤ 1 → t.enc.wave = rest) ∧
        (1 < g.cycles → t.enc.wave =
          { level := g.level, cycles := g.cycles - 1, tag := g.tag, first := false } :: rest))

/-- No waveform is cut, merged or lost: one is started only when at most 1 cycle remains, otherwise the command is not
ready, and in every other cycle exactly one cycle of the waveform passes (40_encoder.md section 2). -/
def Obligations.TransmissionIsNeverCut : Prop :=
  ∀ s t : State, Sound s → rstIn s = false → step s = .next t →
    (waveStarted s = true → waveLen s.enc.wave ≤ 1) ∧
    (∀ i, decodeCommand (cmdWord s) = .ok i → startsWave i = true → 1 < waveLen s.enc.wave → cmdReady s = false) ∧
    (waveStarted s = false →
      waveLen t.enc.wave = waveLen s.enc.wave - 1 ∧ ∀ k, levelAt t.enc.wave k = levelAt s.enc.wave (k + 1))

/-! ## Capture front end -/

/-- The synchroniser loads in every cycle, in reset too, so that after 3 cycles of a stable pin all three stages hold
its level (10_state.md R38). -/
def Obligations.SynchroniserFollowsThePin : Prop :=
  (∀ s t : State, step s = .next t →
    t.fe.s1 = (currentInput s).irIn ∧ t.fe.s2 = s.fe.s1 ∧ t.fe.prev = s.fe.s2) ∧
  (∀ s : State, edgeDetected s = true ↔ s.fe.s2 ≠ s.fe.prev) ∧
  (∀ (σ : Nat → State) (pin : Bool), Runs σ 3 → (∀ k < 3, (currentInput (σ k)).irIn = pin) →
    (σ 3).fe.s1 = pin ∧ (σ 3).fe.s2 = pin ∧ (σ 3).fe.prev = pin)

/-- A service cycle with an edge detected or pending runs one decoder invocation and its dispatch in that cycle, and
the tick counters and the pending flag go to 0 (41_decoder.md R162). -/
def Obligations.PinEdgeRunsTheDecoderInItsCycle : Prop :=
  ∀ s t : State, rstIn s = false → captureMasked s = false → (edgeDetected s = true ∨ s.fe.pend = true) →
    step s = .next t →
    t.fe.ticks = 0 ∧ t.fe.presc = 0 ∧ t.fe.pend = false ∧
    ∃ u, exec (.decEdge s.fe.s2 s.fe.ticks) { s with evt := { s.evt with valid := false } } = .next u ∧
      t.ds = u.ds ∧ t.rs = u.rs ∧ t.evt = u.evt

/-- A masked cycle is one whose head segment is PX_IN, or PX_START after its first cycle, under CAPTURE_MASK =
PER_PIXEL; there an edge sets FE.PEND, nothing is dispatched, and FE.TICKS keeps counting (41_decoder.md section 1).
Whether it is the segment's first cycle is read from the model's flag `first` (log 8). -/
def Obligations.MaskedCyclePendsTheEdge : Prop :=
  ∀ s t : State, rstIn s = false → step s = .next t →
    (captureMasked s = true ↔ s.params.captureMask = .perPixel ∧
      ∃ g rest, s.enc.wave = g :: rest ∧ (g.tag = .pxIn ∨ (g.tag = .pxStart ∧ g.first = false))) ∧
    (captureMasked s = true →
      pinDispatch s = false ∧
      t.fe.pend = (s.fe.pend || edgeDetected s) ∧
      (if s.fe.presc = s.params.tickDiv - 1 then
        t.fe.presc = 0 ∧ t.fe.ticks.toNat = min 65535 (s.fe.ticks.toNat + 1)
      else t.fe.presc = s.fe.presc + 1 ∧ t.fe.ticks = s.fe.ticks))

/-- Between a pin dispatch in cycle 0 and cycle n + 1, with no other dispatch or reset, FE.TICKS reads
min(65535, n div TICK_DIV) (70_reset_and_hazards.md section 2). -/
def Obligations.TicksMeasureTheInterval : Prop :=
  ∀ (σ : Nat → State) (n : Nat), Runs σ (n + 1) → rstIn (σ 0) = false → pinDispatch (σ 0) = true →
    (∀ k, 1 ≤ k → k ≤ n → rstIn (σ k) = false ∧ pinDispatch (σ k) = false) →
    (σ (n + 1)).fe.ticks.toNat = min 65535 (n / (σ 0).params.tickDiv)

/-- With CAPTURE_MASK = NONE every detected edge is dispatched in its cycle, and no edge is lost or mistimed
(41_decoder.md section 1; the anomaly view is the model's, log 10). -/
def Obligations.WithoutMaskNoEdgeIsLost : Prop :=
  ∀ s : State, Sound s → rstIn s = false → s.params.captureMask = .none →
    (pinDispatch s = true ↔ edgeDetected s = true) ∧
    .lostEdge ∉ cycleAnomalies s ∧ .mistimedEdge ∉ cycleAnomalies s

/-! ## Decoder -/

/-- The decoder step is the pseudocode of 41_decoder.md R166, its five steps in order. -/
def Obligations.DecoderStepIsThePseudocode : Prop :=
  ∀ (p : Params) (lv : Bool) (t : Ticks) (d : DecoderState), decStep p lv t d = decStepSequential p lv t d

/-- DEC_EDGE completes in every state: one decoder step, and then its dispatch, if it has one, as CMD_RECEIVE or
CMD_REPEAT runs it; FE and ENC are not touched (41_decoder.md section 2). -/
def Obligations.DecEdgeRunsOneDecoderStep : Prop :=
  ∀ (lv : Bool) (t : Ticks) (s : State), ∃ u, exec (.decEdge lv t) s = .next u ∧ u.fe = s.fe ∧ u.enc = s.enc ∧
    match decStepSequential s.params lv t s.ds with
    | (d, none) => u = { s with ds := d }
    | (d, some (.receive w)) => exec (.cmdReceive w) { s with ds := d } = .next u
    | (d, some (.repeated w)) => exec (.cmdRepeat w) { s with ds := d } = .next u

/-- After a rising edge that ends a long gap the decoder is at position 1, disarmed, with no dispatch, whatever
happened before; so a sequence of edges with such an edge ends as it does from that point (41_decoder.md R175). -/
def Obligations.LongGapResynchronises : Prop :=
  ∀ (p : Params) (t : Ticks) (d : DecoderState), p.WellFormed → p.tGap.toNat < t.toNat →
    (decStep p true t d).1.pos = 1 ∧ (decStep p true t d).1.armed = false ∧ (decStep p true t d).2 = none ∧
    (decStep p true t d).1 = { d with pos := 1, armed := false } ∧
    ∀ before after : List (Bool × Ticks),
      decSteps p (before ++ (true, t) :: after) d =
        ((decSteps p after { (decSteps p before d).1 with pos := 1, armed := false }).1,
         (decSteps p before d).2 ++ none ::
           (decSteps p after { (decSteps p before d).1 with pos := 1, armed := false }).2)

/-- A Repeat needs position 1, a Receive a position past K_BITS, and the position is the same at both steps, so the two
never dispatch in one invocation (41_decoder.md R176). -/
def Obligations.AtMostOneDispatchPerInvocation : Prop :=
  ∀ (p : Params) (lv : Bool) (t : Ticks) (d d1 d3 : DecoderState), p.WellFormed →
    d1 = longGapRule p lv t d → d3 = shiftRule p lv t (headerRule p t d1) →
    ((repeatRule p t d1).isSome = true → d1.pos = 1) ∧
    ((completionEvent p d3).isSome = true → p.kBits < d3.pos.toNat) ∧ 1 ≤ p.kBits ∧ d3.pos = d1.pos ∧
    ¬ ((repeatRule p t d1).isSome = true ∧ (completionEvent p d3).isSome = true) ∧
    (decStep p lv t d).2 = (completionEvent p d3).or (repeatRule p t d1)

/-- A time equal to a threshold does not exceed it: T_SHORT is a 0, T_GAP no gap, T_HDR_HI no header but a repeat marker
if above T_HDR_LO (41_decoder.md R177). -/
def Obligations.ThresholdsAreStrict : Prop :=
  ∀ (p : Params) (d : DecoderState),
    (∀ a b : Ticks, exceeds a b = true ↔ a.toNat > b.toNat) ∧
    (d.armed = true → d.pos ≠ 1 →
      (decStep p false p.tShort d).1.code.getLsbD 0 = false) ∧
    (d.pos ≠ 1 → (decStep p true p.tGap d).1.pos = d.pos + 1) ∧
    (d.pos = 1 → d.armed = false → (decStep p false p.tHdrHi d).1.armed = false) ∧
    (d.pos = 1 → d.armed = false → d.done = true → p.tHdrLo.toNat < p.tHdrHi.toNat →
      (decStep p false p.tHdrHi d).2 = some (.repeated d.last))

/-- At position 1, past T_HDR_LO and not past T_HDR_HI, and with no long gap, a repeat marker dispatches Repeat(DS.LAST)
exactly while DS.DONE = 1 and changes nothing but the count (41_decoder.md section 2). -/
def Obligations.RepeatMarkerNeedsACompletedCode : Prop :=
  ∀ (p : Params) (lv : Bool) (t : Ticks) (d : DecoderState), d.pos = 1 → d.armed = false →
    p.tHdrLo.toNat < t.toNat → t.toNat ≤ p.tHdrHi.toNat → (lv = true → t.toNat ≤ p.tGap.toNat) →
    (decStep p lv t d).1 = { d with pos := 2 } ∧
    (decStep p lv t d).2 = if d.done = true then some (.repeated d.last) else none

/-- A Receive needs an armed decoder and disarms it, with the code latched and DS.DONE set; a disarmed decoder gives none
(41_decoder.md section 2). -/
def Obligations.CompletionFiresOncePerFrame : Prop :=
  ∀ (p : Params) (lv : Bool) (t : Ticks) (d : DecoderState) (w : CodeWord), p.WellFormed →
    (decStep p lv t d).2 = some (.receive w) →
    d.armed = true ∧ p.kBits < d.pos.toNat ∧ (decStep p lv t d).1.armed = false ∧
    (decStep p lv t d).1.done = true ∧ (decStep p lv t d).1.last = w ∧ (decStep p lv t d).1.code = w

/-- A frame of n data bits with K_BITS = 2n, at the edge times of 41_decoder.md R178, dispatches one Receive, at its
last edge, of the last 16 bits shifted in, the header's bit first; no earlier edge dispatches. For n of 16 or more the header
bit and the older data bits are gone from the register. -/
def Obligations.FrameDecodesToItsCodeWord : Prop :=
  ∀ (p : Params) (d : DecoderState) (tGapEnd tHeader : Ticks) (bits : List (Bool × Ticks × Ticks)),
    p.WellFormed → p.kBits = 2 * bits.length →
    p.tGap.toNat < tGapEnd.toNat → p.tHdrHi.toNat < tHeader.toNat →
    (∀ b ∈ bits, b.2.1.toNat ≤ p.tGap.toNat ∧ (b.1 = true ↔ p.tShort.toNat < b.2.2.toNat)) →
    ∃ d' w,
      decSteps p ((true, tGapEnd) :: (false, tHeader) ::
          bits.flatMap (fun b => [(true, b.2.1), (false, b.2.2)])) d =
        (d', List.replicate (2 * bits.length + 1) none ++ [some (.receive w)]) ∧
      d'.last = w ∧ d'.done = true ∧ d'.armed = false ∧
      w = shiftAll 0 (decide (p.tShort.toNat < tHeader.toNat) :: bits.map (·.1)) ∧
      (∀ k < 16, k < bits.length → w.getLsbD k = (bits.map (·.1)).reverse.getD k false) ∧
      (bits.length < 16 → w.getLsbD bits.length = decide (p.tShort.toNat < tHeader.toNat)) ∧
      (∀ k, bits.length < k → w.getLsbD k = false)

/-! ## Interpreter -/

/-- decode(w) is the lowest index whose table entry is w, and 0 when no entry is (42_interpreter.md R201). -/
def Obligations.LookupFindsTheFirstMatch : Prop :=
  ∀ (c : Config) (w : CodeWord),
    (w ∉ c.val.codeTable → lookupIndex c.val w = 0) ∧
    (w ∈ c.val.codeTable →
      1 ≤ (lookupIndex c.val w).toNat ∧ (lookupIndex c.val w).toNat ≤ c.val.nCmd ∧
      c.val.codeTable[(lookupIndex c.val w).toNat - 1]? = some w ∧
      ∀ j, 1 ≤ j → j < (lookupIndex c.val w).toNat → c.val.codeTable[j - 1]? ≠ some w)

/-- CMD_RECEIVE completes in every state: DS.REP <- 0, then the action of the code's index once, and EVT; an unrecognised
code changes nothing else (42_interpreter.md section 2). -/
def Obligations.ReceiveExecutesTheActionOnce : Prop :=
  ∀ (w : CodeWord) (s : State),
    (lookupIndex s.params w = 0 →
      exec (.cmdReceive w) s = .next { s with
        ds := { s.ds with rep := 0 }
        evt := { valid := true, kind := false, code := w, index := 0, exec := false } }) ∧
    (lookupIndex s.params w ≠ 0 → ∃ d a t,
      s.params.action[(lookupIndex s.params w).toNat - 1]? = some d ∧ decodeDescriptor d = .ok a ∧
      exec a { s with ds := { s.ds with rep := 0 } } = .next t ∧
      exec (.cmdReceive w) s = .next { t with
        evt := { valid := true, kind := false, code := w, index := lookupIndex s.params w, exec := true } })

/-- CMD_REPEAT completes in every state: DS.REP goes up, saturating, then the action of the code's index runs unless
the index is in EX_LO to EX_HI, and EVT (42_interpreter.md section 2). -/
def Obligations.RepeatExecutesUnlessExcluded : Prop :=
  ∀ (w : CodeWord) (s : State), ∃ r : Byte, r.toNat = min 255 (s.ds.rep.toNat + 1) ∧
    (lookupIndex s.params w = 0 →
      exec (.cmdRepeat w) s = .next { s with
        ds := { s.ds with rep := r }
        evt := { valid := true, kind := true, code := w, index := 0, exec := false } }) ∧
    (lookupIndex s.params w ≠ 0 →
      s.params.exLo.toNat ≤ (lookupIndex s.params w).toNat → (lookupIndex s.params w).toNat ≤ s.params.exHi.toNat →
      exec (.cmdRepeat w) s = .next { s with
        ds := { s.ds with rep := r }
        evt := { valid := true, kind := true, code := w, index := lookupIndex s.params w, exec := false } }) ∧
    (lookupIndex s.params w ≠ 0 →
      ¬ (s.params.exLo.toNat ≤ (lookupIndex s.params w).toNat ∧
         (lookupIndex s.params w).toNat ≤ s.params.exHi.toNat) → ∃ d a t,
      s.params.action[(lookupIndex s.params w).toNat - 1]? = some d ∧ decodeDescriptor d = .ok a ∧
      exec a { s with ds := { s.ds with rep := r } } = .next t ∧
      exec (.cmdRepeat w) s = .next { t with
        evt := { valid := true, kind := true, code := w, index := lookupIndex s.params w, exec := true } })

/-- A_NOP writes nothing; A_POWER inverts RS.RUN; A_SELECT records the current mode and color, installs those not kept and
sets RS.CD to 255; none writes anything else (42_interpreter.md section 3). -/
def Obligations.NopPowerAndSelectActions : Prop :=
  ∀ (mode : ModeTag) (color : Color) (km kc : Bool) (s : State),
    exec .aNop s = .next s ∧
    exec .aPower s = .next { s with rs := { s.rs with run := !s.rs.run } } ∧
    exec (.aSelect km kc mode color) s = .next { s with rs := { s.rs with
      pmode := s.rs.mode
      pcolor := s.rs.color
      mode := bif km then s.rs.mode else mode
      color := bif kc then s.rs.color else color
      cd := 255 } }

/-- The brightness and speed actions step by DS.REP, clamped to 0 and 255, and write nothing else
(42_interpreter.md section 3; that the step is DS.REP of the state the action runs in is deduced, log 7). -/
def Obligations.AdjustmentsStepByRepAndSaturate : Prop :=
  ∀ s : State,
    (∃ v : Byte, v.toNat = min 255 (s.rs.bright.toNat + s.ds.rep.toNat) ∧
      exec .aBrightUp s = .next { s with rs := { s.rs with bright := v } }) ∧
    (∃ v : Byte, v.toNat = s.rs.bright.toNat - s.ds.rep.toNat ∧
      exec .aBrightDown s = .next { s with rs := { s.rs with bright := v } }) ∧
    (∃ v : Byte, v.toNat = min 255 (s.rs.speed.toNat + s.ds.rep.toNat) ∧
      exec .aSpeedUp s = .next { s with rs := { s.rs with speed := v } }) ∧
    (∃ v : Byte, v.toNat = s.rs.speed.toNat - s.ds.rep.toNat ∧
      exec .aSpeedDown s = .next { s with rs := { s.rs with speed := v } })

/-- n consecutive repeats leave DS.REP = min(255, r0 + n), and min(255, n) after a receive; the next repeat of a BRIGHT_* or
SPEED_* code outside the excluded range moves its field by min(255, r0 + n + 1), and the k-th after a receive by min(k, 255),
clamped, and changes no other Render State field (42_interpreter.md R214). -/
def Obligations.RepeatsAccelerate : Prop :=
  ∀ (w : CodeWord) (n : Nat) (s : State),
    (∃ t, execAll (List.replicate n (.cmdRepeat w)) s = .next t ∧ t.ds.rep.toNat = min 255 (s.ds.rep.toNat + n)) ∧
    (∃ t, execAll (.cmdReceive w :: List.replicate n (.cmdRepeat w)) s = .next t ∧ t.ds.rep.toNat = min 255 n) ∧
    (∀ (d : Descriptor) (a : Instr), lookupIndex s.params w ≠ 0 →
      ¬ (s.params.exLo.toNat ≤ (lookupIndex s.params w).toNat ∧
         (lookupIndex s.params w).toNat ≤ s.params.exHi.toNat) →
      s.params.action[(lookupIndex s.params w).toNat - 1]? = some d → decodeDescriptor d = .ok a →
      (∃ t u, execAll (List.replicate n (.cmdRepeat w)) s = .next t ∧ exec (.cmdRepeat w) t = .next u ∧
        AdjustsBy (min 255 (s.ds.rep.toNat + n + 1)) t.rs u.rs a) ∧
      (∃ t u, execAll (.cmdReceive w :: List.replicate n (.cmdRepeat w)) s = .next t ∧
        exec (.cmdRepeat w) t = .next u ∧ AdjustsBy (min (n + 1) 255) t.rs u.rs a))

/-- For an index of the excluded range a receive followed by any number of repeats changes the Render State as the
receive alone does (42_interpreter.md R215). -/
def Obligations.ExcludedIndexActsOnlyOnReceive : Prop :=
  ∀ (w : CodeWord) (n : Nat) (s : State), lookupIndex s.params w ≠ 0 →
    s.params.exLo.toNat ≤ (lookupIndex s.params w).toNat → (lookupIndex s.params w).toNat ≤ s.params.exHi.toNat →
    ∃ t u, exec (.cmdReceive w) s = .next t ∧
      execAll (.cmdReceive w :: List.replicate n (.cmdRepeat w)) s = .next u ∧
      u.rs = t.rs ∧ u.ds.rep.toNat = min 255 n ∧ (0 < n → u.evt.kind = true ∧ u.evt.exec = false)

/-- At a bound an adjustment changes nothing, whatever the step, and never wraps past it (42_interpreter.md R216). -/
def Obligations.BoundsNeverWrap : Prop :=
  ∀ s : State,
    (s.rs.bright = 255 → exec .aBrightUp s = .next s) ∧ (s.rs.bright = 0 → exec .aBrightDown s = .next s) ∧
    (s.rs.speed = 255 → exec .aSpeedUp s = .next s) ∧ (s.rs.speed = 0 → exec .aSpeedDown s = .next s) ∧
    (∀ t, exec .aBrightUp s = .next t → s.rs.bright.toNat ≤ t.rs.bright.toNat) ∧
    (∀ t, exec .aBrightDown s = .next t → t.rs.bright.toNat ≤ s.rs.bright.toNat) ∧
    (∀ t, exec .aSpeedUp s = .next t → s.rs.speed.toNat ≤ t.rs.speed.toNat) ∧
    (∀ t, exec .aSpeedDown s = .next t → t.rs.speed.toNat ≤ s.rs.speed.toNat)

/-- An unrecognised code changes no Render State field on either path; DS.REP and EVT are still written
(42_interpreter.md R217). -/
def Obligations.UnrecognisedCodeKeepsTheRenderState : Prop :=
  ∀ (w : CodeWord) (s : State), lookupIndex s.params w = 0 →
    (∃ t, exec (.cmdReceive w) s = .next t ∧ t.rs = s.rs ∧ t.ds.rep = 0 ∧
      t.evt = { valid := true, kind := false, code := w, index := 0, exec := false }) ∧
    (∃ t, exec (.cmdRepeat w) s = .next t ∧ t.rs = s.rs ∧ t.ds.rep.toNat = min 255 (s.ds.rep.toNat + 1) ∧
      t.evt = { valid := true, kind := true, code := w, index := 0, exec := false })

/-! ## Port control and render step -/

/-- NOP is exactly the word 0, is always ready, writes nothing, and leaves evt_valid 0 after a cycle without a pin
dispatch; any other word with OP 0 sets ERR (44_control.md R250). -/
def Obligations.NopDoesNothing : Prop :=
  (∀ s : State, exec .nop s = .next s ∧ (rstIn s = false → cmdWord s = 0 → cmdReady s = true)) ∧
  (∀ cw : CommandWord, decodeCommand cw = .ok .nop ↔ cw = 0) ∧
  (∀ (cw : CommandWord) (s : State), opField cw = 0 → cw ≠ 0 →
    ∃ t, step (presentWord cw s) = .next t ∧ t.err = true) ∧
  (∀ s : State, pinDispatch s = false → ∃ t, step (presentWord 0 s) = .next t ∧ t.evt.valid = false)

/-- FRAME_TICK completes in every state: N_PIX pixels, pixel i of the color the Render State gives it, at RS.BRIGHT, then
the reset code; RS.CD goes down by CD_STEP, clamped at 0, and nothing else is written (43_render.md; a segment's flag
`first` is the model's, log 8). -/
def Obligations.FrameTickSendsTheFrame : Prop :=
  ∀ s : State, ∃ (cd : Byte) (reset : Segment) (w : List Segment),
    cd.toNat = s.rs.cd.toNat - s.params.cdStep.toNat ∧
    reset = { level := false, cycles := s.params.tRst, tag := .none, first := true } ∧
    w = ((List.range s.params.nPix).map
      (fun i => pixelWave s.params (pixelColor s.params s.rs i) s.rs.bright)).flatten ++ [reset] ∧
    exec .frameTick s = .next { s with enc := { wave := w }, rs := { s.rs with cd := cd } }

/-- The color of a pixel: dark while RS.RUN = 0, the pattern's current color while RS.CD = 0, else the blend of the
previous and the current one, channel by channel (43_render.md, its paragraphs on the pixel color, the blend, the pattern and the
running flag). That a pattern with no exceptions is the uniform default is the model's form of PATTERN (log 3). -/
def Obligations.PixelColorFromTheSnapshot : Prop :=
  ∀ (p : Params) (rs : RenderState) (i : Nat),
    (rs.run = false → pixelColor p rs i = 0) ∧
    (rs.run = true → rs.cd = 0 → pixelColor p rs i = patternColor p rs.mode rs.color i) ∧
    (rs.run = true → rs.cd ≠ 0 → ∀ lo ∈ [24, 16, 8, 0],
      channelAt (pixelColor p rs i) lo =
        (channelAt (patternColor p rs.pmode rs.pcolor i) lo * rs.cd.toNat +
          channelAt (patternColor p rs.mode rs.color i) lo * (255 - rs.cd.toNat)) / 255) ∧
    (p.pattern = [] → ∀ m c, patternColor p m c i = c)

/-- The blend of a channel lies between its two colors, is the previous one at weight 255, and moves toward the current
one as the weight falls (43_render.md section on the blend). -/
def Obligations.BlendMovesFromPreviousToCurrent : Prop :=
  ∀ a b : Byte,
    blendChannel a b 255 = a ∧
    (∀ cd : Byte, min a.toNat b.toNat ≤ (blendChannel a b cd).toNat ∧
      (blendChannel a b cd).toNat ≤ max a.toNat b.toNat) ∧
    (∀ c1 c2 : Byte, c1.toNat ≤ c2.toNat →
      (a.toNat ≤ b.toNat → (blendChannel a b c2).toNat ≤ (blendChannel a b c1).toNat) ∧
      (b.toNat ≤ a.toNat → (blendChannel a b c1).toNat ≤ (blendChannel a b c2).toNat))

/-- After a SELECT, with CD_STEP = 5 and no other SELECT, the k-th FRAME_TICK starts from weight 255 - 5(k - 1) and leaves
RS.CD = max(0, 255 - 5k); the 51st leaves 0, and the 52nd blends no more (43_render.md R247). First with the ticks one after the
other; then over a run of cycles in which any other operations and pin edges stand between them, each frame sent being that of the
Render State with that weight. -/
def Obligations.CountdownAfterSelect : Prop :=
  (∀ (km kc : Bool) (mode : ModeTag) (color : Color) (s : State) (k : Nat), s.params.cdStep = 5 →
    ∃ t, execAll (.aSelect km kc mode color :: List.replicate k .frameTick) s = .next t ∧
      t.rs.cd.toNat = 255 - 5 * k ∧ (51 ≤ k → t.rs.cd = 0 ∧
        ∀ i, t.rs.run = true → pixelColor t.params t.rs i = patternColor t.params t.rs.mode t.rs.color i) ∧
      (k < 51 → t.rs.cd ≠ 0)) ∧
  (∀ (σ : Nat → State) (n : Nat) (a : Instr), Runs σ (n + 1) → (σ 0).params.cdStep = 5 →
    rstIn (σ 0) = false → cycleAction (σ 0) = some a → isSelect a = true →
    (∀ j, 1 ≤ j → j ≤ n → rstIn (σ j) = false ∧ (cycleAction (σ j)).any isSelect = false) →
    (σ (n + 1)).rs.cd.toNat = 255 - 5 * frameTicks σ n ∧
    ((σ (n + 1)).rs.cd = 0 ↔ 51 ≤ frameTicks σ n) ∧
    (51 ≤ frameTicks σ n → (σ (n + 1)).rs.run = true → ∀ i,
      pixelColor (σ (n + 1)).params (σ (n + 1)).rs i =
        patternColor (σ (n + 1)).params (σ (n + 1)).rs.mode (σ (n + 1)).rs.color i) ∧
    (∀ u, rstIn (σ (n + 1)) = false → acceptedInstr (σ (n + 1)) = some .frameTick → step (σ (n + 1)) = .next u →
      u.enc.wave = frameWave (σ (n + 1)).params
        ((List.range (σ (n + 1)).params.nPix).map (pixelColor (σ (n + 1)).params (σ (n + 1)).rs))
        (σ (n + 1)).rs.bright))
end

