-- ==== Sys2Proof/Laws/Arithmetic.lean ====
section
/-! SUPPORT. The arithmetic of the block as exact numbers (00_scope.md R14): each result before it is a bit vector. -/

namespace Sys2Proof.Machine

open Sys2Proof

theorem byte_toNat_le (a : Byte) : a.toNat ≤ 255 := Nat.le_of_lt_succ a.isLt

theorem byte_ext {a b : Byte} (h : a.toNat = b.toNat) : a = b := BitVec.eq_of_toNat_eq h

@[simp] theorem satAdd8_toNat (a b : Byte) : (satAdd8 a b).toNat = min 255 (a.toNat + b.toNat) := by
  rw [satAdd8, BitVec.toNat_ofNat, Nat.mod_eq_of_lt (by omega)]

@[simp] theorem satSub8_toNat (a b : Byte) : (satSub8 a b).toNat = a.toNat - b.toNat := by
  have := byte_toNat_le a
  rw [satSub8, BitVec.toNat_ofNat, Nat.mod_eq_of_lt (by omega)]

@[simp] theorem satInc8_toNat (a : Byte) : (satInc8 a).toNat = min 255 (a.toNat + 1) := by
  simp [satInc8]

@[simp] theorem satInc16_toNat (a : Ticks) : (satInc16 a).toNat = min 65535 (a.toNat + 1) := by
  rw [satInc16, BitVec.toNat_ofNat, Nat.mod_eq_of_lt (by omega)]

@[simp] theorem inc8_toNat (a : Byte) : (inc8 a).toNat = (a.toNat + 1) % 256 := by
  simp [inc8]

/-- A product of two bytes divided by 256 is a byte (40_encoder.md R122). -/
theorem mul_div_256_lt (b s : Byte) : b.toNat * s.toNat / 256 < 256 := by
  have h : b.toNat * s.toNat ≤ 255 * 255 := Nat.mul_le_mul (byte_toNat_le b) (byte_toNat_le s)
  omega

@[simp] theorem scale_toNat (b s : Byte) : (scale b s).toNat = b.toNat * s.toNat / 256 := by
  rw [scale, BitVec.toNat_ofNat, Nat.mod_eq_of_lt (mul_div_256_lt b s)]

/-- The weighted sum of two bytes at weights adding to 255 is at most 255 * 255 (43_render.md R243). -/
theorem blend_sum_le (a b cd : Byte) : a.toNat * cd.toNat + b.toNat * (255 - cd.toNat) ≤ 255 * 255 := by
  have h1 : a.toNat * cd.toNat ≤ 255 * cd.toNat := Nat.mul_le_mul_right _ (byte_toNat_le a)
  have h2 : b.toNat * (255 - cd.toNat) ≤ 255 * (255 - cd.toNat) := Nat.mul_le_mul_right _ (byte_toNat_le b)
  have := byte_toNat_le cd
  omega

@[simp] theorem blendChannel_toNat (a b cd : Byte) :
    (blendChannel a b cd).toNat = (a.toNat * cd.toNat + b.toNat * (255 - cd.toNat)) / 255 := by
  have := blend_sum_le a b cd
  rw [blendChannel, BitVec.toNat_ofNat, Nat.mod_eq_of_lt (by omega)]

end Sys2Proof.Machine
end

