-- ==== Sys2Proof/Laws/Encoding.lean ====
section
/-! SUPPORT. The fields of packed words and descriptors, their conjunction with a mask, and the rows of the two
opcode maps. -/

namespace Sys2Proof

/-! ## Command words (30_encoding.md R81) -/

@[simp] theorem opField_packCommand (op s : BitVec 8) (h : BitVec 16) (c : BitVec 32) :
    opField (packCommand op s h c) = op := by
  apply BitVec.eq_of_getLsbD_eq
  intro i hi
  simp only [opField, packCommand, BitVec.getLsbD_extractLsb', hi]
  grind

@[simp] theorem sField_packCommand (op s : BitVec 8) (h : BitVec 16) (c : BitVec 32) :
    sField (packCommand op s h c) = s := by
  apply BitVec.eq_of_getLsbD_eq
  intro i hi
  simp only [sField, packCommand, BitVec.getLsbD_extractLsb', hi]
  grind

@[simp] theorem hField_packCommand (op s : BitVec 8) (h : BitVec 16) (c : BitVec 32) :
    hField (packCommand op s h c) = h := by
  apply BitVec.eq_of_getLsbD_eq
  intro i hi
  simp only [hField, packCommand, BitVec.getLsbD_extractLsb', hi]
  grind

@[simp] theorem cField_packCommand (op s : BitVec 8) (h : BitVec 16) (c : BitVec 32) :
    cField (packCommand op s h c) = c := by
  apply BitVec.eq_of_getLsbD_eq
  intro i hi
  simp only [cField, packCommand, BitVec.getLsbD_extractLsb', hi]
  grind

/-- The byte operand is the low byte of the field C (30_encoding.md R83). -/
theorem byteField_eq_cField (cw : CommandWord) : byteField cw = (cField cw).extractLsb' 0 8 := by
  apply BitVec.eq_of_getLsbD_eq
  intro i hi
  simp only [byteField, cField, BitVec.getLsbD_extractLsb', hi]
  grind

/-- The level operand is bit 0 of the field S (30_encoding.md R83). -/
theorem levelField_eq_sField (cw : CommandWord) : levelField cw = (sField cw).getLsbD 0 := by
  simp only [levelField, sField, BitVec.getLsbD_extractLsb']
  grind

/-- A word is its fields, packed (30_encoding.md R81). -/
theorem packCommand_fields (cw : CommandWord) :
    packCommand (opField cw) (sField cw) (hField cw) (cField cw) = cw := by
  apply BitVec.eq_of_getLsbD_eq
  intro i hi
  simp only [opField, sField, hField, cField, packCommand]
  grind

/-- Two packed words are equal only field by field. -/
theorem packCommand_inj {op s op' s' : BitVec 8} {h h' : BitVec 16} {c c' : BitVec 32}
    (e : packCommand op s h c = packCommand op' s' h' c') : op = op' ∧ s = s' ∧ h = h' ∧ c = c' :=
  ⟨by simpa using congrArg opField e, by simpa using congrArg sField e, by simpa using congrArg hField e,
    by simpa using congrArg cField e⟩

/-- The conjunction of packed words goes field by field. -/
theorem packCommand_and (op s op' s' : BitVec 8) (h h' : BitVec 16) (c c' : BitVec 32) :
    packCommand op s h c &&& packCommand op' s' h' c' =
      packCommand (op &&& op') (s &&& s') (h &&& h') (c &&& c') := by
  unfold packCommand
  exact (BitVec.and_append).trans (congrArg (· ++ (c &&& c'))
    ((BitVec.and_append).trans (congrArg (· ++ (h &&& h')) BitVec.and_append)))

/-- A command word decodes to a row's operation when it has the row's OP and fits its mask (30_encoding.md R88). -/
theorem decodeCommand_of_row {cw : CommandWord} (o : CommandOp) (hop : opField cw = o.code)
    (hm : cw &&& o.maskBits = o.matchBits) : decodeCommand cw = .ok (o.assemble cw) := by
  have : CommandOp.ofCode o.code = some o := by cases o <;> decide
  simp [decodeCommand, hop, this, hm]

/-- What a command word decodes to, once for all (30_encoding.md R88). -/
theorem decodeCommand_ok {cw : CommandWord} {i : Instr} (h : decodeCommand cw = .ok i) :
    ∃ o : CommandOp, opField cw = o.code ∧ cw &&& o.maskBits = o.matchBits ∧ i = o.assemble cw := by
  unfold decodeCommand at h
  split at h
  · cases h
  · rename_i o ho
    split at h
    · rename_i hm
      have hc : o.code = opField cw := by simpa using List.find?_some ho
      exact ⟨o, hc.symm, hm, (Except.ok.inj h).symm⟩
    · cases h

/-- A decoded command word is an operation of the host port, never an action kind (30_encoding.md R82). -/
theorem decodeCommand_isCommand {cw : CommandWord} {i : Instr} (h : decodeCommand cw = .ok i) :
    i.isCommand = true := by
  obtain ⟨o, -, -, rfl⟩ := decodeCommand_ok h
  cases o <;> rfl

/-! ## Descriptors (30_encoding.md R95) -/

@[simp] theorem kindField_packDescriptor (k : BitVec 4) (km kc : Bool) (m : ModeTag) (c : Color) :
    kindField (packDescriptor k km kc m c) = k := by
  apply BitVec.eq_of_getLsbD_eq
  intro i hi
  simp only [kindField, packDescriptor, BitVec.getLsbD_extractLsb', hi]
  grind

@[simp] theorem kmField_packDescriptor (k : BitVec 4) (km kc : Bool) (m : ModeTag) (c : Color) :
    kmField (packDescriptor k km kc m c) = km := by
  simp only [kmField, packDescriptor]
  grind

@[simp] theorem kcField_packDescriptor (k : BitVec 4) (km kc : Bool) (m : ModeTag) (c : Color) :
    kcField (packDescriptor k km kc m c) = kc := by
  simp only [kcField, packDescriptor]
  grind

@[simp] theorem modeField_packDescriptor (k : BitVec 4) (km kc : Bool) (m : ModeTag) (c : Color) :
    modeField (packDescriptor k km kc m c) = m := by
  apply BitVec.eq_of_getLsbD_eq
  intro i hi
  simp only [modeField, packDescriptor, BitVec.getLsbD_extractLsb', hi]
  grind

@[simp] theorem colorField_packDescriptor (k : BitVec 4) (km kc : Bool) (m : ModeTag) (c : Color) :
    colorField (packDescriptor k km kc m c) = c := by
  apply BitVec.eq_of_getLsbD_eq
  intro i hi
  simp only [colorField, packDescriptor, BitVec.getLsbD_extractLsb', hi]
  grind

/-- The conjunction of six packed fields goes field by field. -/
theorem append_six_and {n1 n2 n3 n4 n5 n6 : Nat} (a a' : BitVec n1) (b b' : BitVec n2) (c c' : BitVec n3)
    (d d' : BitVec n4) (e e' : BitVec n5) (f f' : BitVec n6) :
    (a ++ b ++ c ++ d ++ e ++ f) &&& (a' ++ b' ++ c' ++ d' ++ e' ++ f') =
      (a &&& a') ++ (b &&& b') ++ (c &&& c') ++ (d &&& d') ++ (e &&& e') ++ (f &&& f') := by
  rw [BitVec.and_append, BitVec.and_append, BitVec.and_append, BitVec.and_append, BitVec.and_append]

/-- A descriptor of kind A_SELECT fits the A_SELECT row whatever its fields (30_encoding.md R96). -/
theorem packDescriptor_select_row (km kc : Bool) (m : ModeTag) (c : Color) :
    packDescriptor 0x6 km kc m c &&& ActionKind.maskBits .select = ActionKind.matchBits .select := by
  have hmask : ActionKind.maskBits .select = (0xF#4 ++ 0#1 ++ 0#1 ++ 3#2 ++ 0#8 ++ 0#32 : BitVec 48) := by decide
  have hmatch : ActionKind.matchBits .select = (0x6#4 ++ 0#1 ++ 0#1 ++ 0#2 ++ 0#8 ++ 0#32 : BitVec 48) := by
    decide
  rw [hmask, hmatch]
  refine (append_six_and _ _ _ _ _ _ _ _ _ _ _ _).trans ?_
  simp

/-- What a descriptor decodes to, once for all (30_encoding.md R95, R96). -/
theorem decodeDescriptor_ok {d : Descriptor} {i : Instr} (h : decodeDescriptor d = .ok i) :
    ∃ k : ActionKind, kindField d = k.code ∧ d &&& k.maskBits = k.matchBits ∧ i = k.assemble d ∧
      i.wellFormed = true := by
  unfold decodeDescriptor at h
  split at h
  · cases h
  · rename_i k hk
    split at h
    · rename_i hm
      split at h
      · rename_i hw
        have hc : k.code = kindField d := by simpa using List.find?_some hk
        cases h
        exact ⟨k, hc.symm, hm, rfl, hw⟩
      · cases h
    · cases h

/-- A descriptor decodes to its kind's action when it fits the row and keeps no field (30_encoding.md R96). -/
theorem decodeDescriptor_of_row {d : Descriptor} (k : ActionKind) (hk : kindField d = k.code)
    (hm : d &&& k.maskBits = k.matchBits) (hw : (k.assemble d).wellFormed = true) :
    decodeDescriptor d = .ok (k.assemble d) := by
  have : ActionKind.ofCode k.code = some k := by cases k <;> decide
  simp [decodeDescriptor, hk, this, hm, hw]

/-- A decoded descriptor is an action kind, never a command of the host port (30_encoding.md R96). -/
theorem decodeDescriptor_isAction {d : Descriptor} {i : Instr} (h : decodeDescriptor d = .ok i) :
    i.isCommand = false := by
  obtain ⟨k, -, -, rfl, -⟩ := decodeDescriptor_ok h
  cases k <;> rfl

end Sys2Proof
end

