-- ==== Sys2Proof/Laws/State.lean ====
section
/-! SUPPORT. What each write of Machine/Ops.lean leaves in each field of the state. -/

namespace Sys2Proof.Machine

open Sys2Proof

/-! ## withRs -/

@[simp] theorem State.withRs_cfg (s : State) (v : RenderState) : (s.withRs v).cfg = s.cfg := rfl
@[simp] theorem State.withRs_rs (s : State) (v : RenderState) : (s.withRs v).rs = v := rfl
@[simp] theorem State.withRs_ds (s : State) (v : RenderState) : (s.withRs v).ds = s.ds := rfl
@[simp] theorem State.withRs_fe (s : State) (v : RenderState) : (s.withRs v).fe = s.fe := rfl
@[simp] theorem State.withRs_enc (s : State) (v : RenderState) : (s.withRs v).enc = s.enc := rfl
@[simp] theorem State.withRs_err (s : State) (v : RenderState) : (s.withRs v).err = s.err := rfl
@[simp] theorem State.withRs_evt (s : State) (v : RenderState) : (s.withRs v).evt = s.evt := rfl
@[simp] theorem State.withRs_script (s : State) (v : RenderState) : (s.withRs v).script = s.script := rfl
@[simp] theorem State.withRs_stream (s : State) (v : RenderState) : (s.withRs v).stream = s.stream := rfl
@[simp] theorem State.withRs_cycle (s : State) (v : RenderState) : (s.withRs v).cycle = s.cycle := rfl

/-! ## withDs -/

@[simp] theorem State.withDs_cfg (s : State) (v : DecoderState) : (s.withDs v).cfg = s.cfg := rfl
@[simp] theorem State.withDs_rs (s : State) (v : DecoderState) : (s.withDs v).rs = s.rs := rfl
@[simp] theorem State.withDs_ds (s : State) (v : DecoderState) : (s.withDs v).ds = v := rfl
@[simp] theorem State.withDs_fe (s : State) (v : DecoderState) : (s.withDs v).fe = s.fe := rfl
@[simp] theorem State.withDs_enc (s : State) (v : DecoderState) : (s.withDs v).enc = s.enc := rfl
@[simp] theorem State.withDs_err (s : State) (v : DecoderState) : (s.withDs v).err = s.err := rfl
@[simp] theorem State.withDs_evt (s : State) (v : DecoderState) : (s.withDs v).evt = s.evt := rfl
@[simp] theorem State.withDs_script (s : State) (v : DecoderState) : (s.withDs v).script = s.script := rfl
@[simp] theorem State.withDs_stream (s : State) (v : DecoderState) : (s.withDs v).stream = s.stream := rfl
@[simp] theorem State.withDs_cycle (s : State) (v : DecoderState) : (s.withDs v).cycle = s.cycle := rfl

/-! ## withFe -/

@[simp] theorem State.withFe_cfg (s : State) (v : FrontEnd) : (s.withFe v).cfg = s.cfg := rfl
@[simp] theorem State.withFe_rs (s : State) (v : FrontEnd) : (s.withFe v).rs = s.rs := rfl
@[simp] theorem State.withFe_ds (s : State) (v : FrontEnd) : (s.withFe v).ds = s.ds := rfl
@[simp] theorem State.withFe_fe (s : State) (v : FrontEnd) : (s.withFe v).fe = v := rfl
@[simp] theorem State.withFe_enc (s : State) (v : FrontEnd) : (s.withFe v).enc = s.enc := rfl
@[simp] theorem State.withFe_err (s : State) (v : FrontEnd) : (s.withFe v).err = s.err := rfl
@[simp] theorem State.withFe_evt (s : State) (v : FrontEnd) : (s.withFe v).evt = s.evt := rfl
@[simp] theorem State.withFe_script (s : State) (v : FrontEnd) : (s.withFe v).script = s.script := rfl
@[simp] theorem State.withFe_stream (s : State) (v : FrontEnd) : (s.withFe v).stream = s.stream := rfl
@[simp] theorem State.withFe_cycle (s : State) (v : FrontEnd) : (s.withFe v).cycle = s.cycle := rfl

/-! ## withWave -/

@[simp] theorem State.withWave_cfg (s : State) (v : List Segment) : (s.withWave v).cfg = s.cfg := rfl
@[simp] theorem State.withWave_rs (s : State) (v : List Segment) : (s.withWave v).rs = s.rs := rfl
@[simp] theorem State.withWave_ds (s : State) (v : List Segment) : (s.withWave v).ds = s.ds := rfl
@[simp] theorem State.withWave_fe (s : State) (v : List Segment) : (s.withWave v).fe = s.fe := rfl
@[simp] theorem State.withWave_enc (s : State) (v : List Segment) : (s.withWave v).enc = { wave := v } := rfl
@[simp] theorem State.withWave_err (s : State) (v : List Segment) : (s.withWave v).err = s.err := rfl
@[simp] theorem State.withWave_evt (s : State) (v : List Segment) : (s.withWave v).evt = s.evt := rfl
@[simp] theorem State.withWave_script (s : State) (v : List Segment) : (s.withWave v).script = s.script := rfl
@[simp] theorem State.withWave_stream (s : State) (v : List Segment) : (s.withWave v).stream = s.stream := rfl
@[simp] theorem State.withWave_cycle (s : State) (v : List Segment) : (s.withWave v).cycle = s.cycle := rfl

/-! ## withErr -/

@[simp] theorem State.withErr_cfg (s : State) (v : Bool) : (s.withErr v).cfg = s.cfg := rfl
@[simp] theorem State.withErr_rs (s : State) (v : Bool) : (s.withErr v).rs = s.rs := rfl
@[simp] theorem State.withErr_ds (s : State) (v : Bool) : (s.withErr v).ds = s.ds := rfl
@[simp] theorem State.withErr_fe (s : State) (v : Bool) : (s.withErr v).fe = s.fe := rfl
@[simp] theorem State.withErr_enc (s : State) (v : Bool) : (s.withErr v).enc = s.enc := rfl
@[simp] theorem State.withErr_err (s : State) (v : Bool) : (s.withErr v).err = v := rfl
@[simp] theorem State.withErr_evt (s : State) (v : Bool) : (s.withErr v).evt = s.evt := rfl
@[simp] theorem State.withErr_script (s : State) (v : Bool) : (s.withErr v).script = s.script := rfl
@[simp] theorem State.withErr_stream (s : State) (v : Bool) : (s.withErr v).stream = s.stream := rfl
@[simp] theorem State.withErr_cycle (s : State) (v : Bool) : (s.withErr v).cycle = s.cycle := rfl

/-! ## withEvt -/

@[simp] theorem State.withEvt_cfg (s : State) (v : EventRecord) : (s.withEvt v).cfg = s.cfg := rfl
@[simp] theorem State.withEvt_rs (s : State) (v : EventRecord) : (s.withEvt v).rs = s.rs := rfl
@[simp] theorem State.withEvt_ds (s : State) (v : EventRecord) : (s.withEvt v).ds = s.ds := rfl
@[simp] theorem State.withEvt_fe (s : State) (v : EventRecord) : (s.withEvt v).fe = s.fe := rfl
@[simp] theorem State.withEvt_enc (s : State) (v : EventRecord) : (s.withEvt v).enc = s.enc := rfl
@[simp] theorem State.withEvt_err (s : State) (v : EventRecord) : (s.withEvt v).err = s.err := rfl
@[simp] theorem State.withEvt_evt (s : State) (v : EventRecord) : (s.withEvt v).evt = v := rfl
@[simp] theorem State.withEvt_script (s : State) (v : EventRecord) : (s.withEvt v).script = s.script := rfl
@[simp] theorem State.withEvt_stream (s : State) (v : EventRecord) : (s.withEvt v).stream = s.stream := rfl
@[simp] theorem State.withEvt_cycle (s : State) (v : EventRecord) : (s.withEvt v).cycle = s.cycle := rfl

/-! ## withWorld -/

@[simp] theorem State.withWorld_cfg (s : State) (a : List CycleIn) (b : List CommandWord) (n : Nat) : (s.withWorld a b n).cfg = s.cfg := rfl
@[simp] theorem State.withWorld_rs (s : State) (a : List CycleIn) (b : List CommandWord) (n : Nat) : (s.withWorld a b n).rs = s.rs := rfl
@[simp] theorem State.withWorld_ds (s : State) (a : List CycleIn) (b : List CommandWord) (n : Nat) : (s.withWorld a b n).ds = s.ds := rfl
@[simp] theorem State.withWorld_fe (s : State) (a : List CycleIn) (b : List CommandWord) (n : Nat) : (s.withWorld a b n).fe = s.fe := rfl
@[simp] theorem State.withWorld_enc (s : State) (a : List CycleIn) (b : List CommandWord) (n : Nat) : (s.withWorld a b n).enc = s.enc := rfl
@[simp] theorem State.withWorld_err (s : State) (a : List CycleIn) (b : List CommandWord) (n : Nat) : (s.withWorld a b n).err = s.err := rfl
@[simp] theorem State.withWorld_evt (s : State) (a : List CycleIn) (b : List CommandWord) (n : Nat) : (s.withWorld a b n).evt = s.evt := rfl
@[simp] theorem State.withWorld_script (s : State) (a : List CycleIn) (b : List CommandWord) (n : Nat) : (s.withWorld a b n).script = a := rfl
@[simp] theorem State.withWorld_stream (s : State) (a : List CycleIn) (b : List CommandWord) (n : Nat) : (s.withWorld a b n).stream = b := rfl
@[simp] theorem State.withWorld_cycle (s : State) (a : List CycleIn) (b : List CommandWord) (n : Nat) : (s.withWorld a b n).cycle = n := rfl

/-! ## withRep -/

@[simp] theorem State.withRep_cfg (s : State) (v : Byte) : (s.withRep v).cfg = s.cfg := rfl
@[simp] theorem State.withRep_rs (s : State) (v : Byte) : (s.withRep v).rs = s.rs := rfl
@[simp] theorem State.withRep_ds (s : State) (v : Byte) : (s.withRep v).ds = { s.ds with rep := v } := rfl
@[simp] theorem State.withRep_fe (s : State) (v : Byte) : (s.withRep v).fe = s.fe := rfl
@[simp] theorem State.withRep_enc (s : State) (v : Byte) : (s.withRep v).enc = s.enc := rfl
@[simp] theorem State.withRep_err (s : State) (v : Byte) : (s.withRep v).err = s.err := rfl
@[simp] theorem State.withRep_evt (s : State) (v : Byte) : (s.withRep v).evt = s.evt := rfl
@[simp] theorem State.withRep_script (s : State) (v : Byte) : (s.withRep v).script = s.script := rfl
@[simp] theorem State.withRep_stream (s : State) (v : Byte) : (s.withRep v).stream = s.stream := rfl
@[simp] theorem State.withRep_cycle (s : State) (v : Byte) : (s.withRep v).cycle = s.cycle := rfl

/-! ## Raising IllegalCommand -/

/-- Raising IllegalCommand sets ERR and writes nothing else (60_exceptions.md R261). -/
theorem raiseIllegalCommand_eq (s : State) : raiseIllegalCommand s = { s with err := true } := rfl

end Sys2Proof.Machine
end

