-- ==== Sys2Proof/Laws/Interpreter.lean ====
section
/-! SUPPORT. What the interpreter can do to the state, and what its lookups find (42_interpreter.md). -/

namespace Sys2Proof.Machine

open Sys2Proof

/-! ## Lookups -/

/-- The search ends at 0 when no entry is the word, else at the first entry that is (42_interpreter.md R201). -/
theorem lookupFrom_spec (w : CodeWord) (l : List CodeWord) (i : Nat) :
    (w ∉ l ∧ lookupFrom w i l = 0) ∨
    (∃ k, lookupFrom w i l = i + k ∧ l[k]? = some w ∧ ∀ j < k, l[j]? ≠ some w) := by
  induction l generalizing i with
  | nil => exact .inl ⟨by simp, rfl⟩
  | cons e l ih =>
    by_cases he : e = w
    · exact .inr ⟨0, by simp [lookupFrom, he], by simp [he], by simp⟩
    · rcases ih (i + 1) with ⟨h1, h2⟩ | ⟨k, h1, h2, h3⟩
      · exact .inl ⟨by simp [h1, Ne.symm he], by simp [lookupFrom, he, h2]⟩
      · refine .inr ⟨k + 1, by simp only [lookupFrom, he, if_false, h1]; omega, by simpa using h2, ?_⟩
        intro j hj
        cases j with
        | zero => simpa using he
        | succ j => simpa using h3 j (by omega)

/-- A looked-up index is at most N_CMD (30_encoding.md R92). -/
theorem lookupIndex_le (c : Config) (w : CodeWord) : (lookupIndex c.val w).toNat ≤ c.val.nCmd := by
  obtain ⟨-, -, hn, hl, -, -⟩ := c.property
  rcases lookupFrom_spec w c.val.codeTable 1 with ⟨-, h⟩ | ⟨k, h, hk, -⟩
  · simp [lookupIndex, h]
  · obtain ⟨hlt, -⟩ := List.getElem?_eq_some_iff.mp hk
    rw [lookupIndex, h, BitVec.toNat_ofNat, Nat.mod_eq_of_lt (by omega)]
    omega

/-- An index of the table has a descriptor, and it is an action's (00_scope.md R10). -/
theorem actionAt_of_index (c : Config) (i : CmdIndex) (h0 : i ≠ 0) (hi : i.toNat ≤ c.val.nCmd) :
    ∃ d a, c.val.action[i.toNat - 1]? = some d ∧ decodeDescriptor d = .ok a ∧ actionAt c.val i = some a := by
  obtain ⟨-, -, -, -, hl, hd⟩ := c.property
  have hpos : i.toNat ≠ 0 := fun h => h0 (BitVec.eq_of_toNat_eq (by simpa using h))
  have hlt : i.toNat - 1 < c.val.action.length := by omega
  have hget : c.val.action[i.toNat - 1]? = some c.val.action[i.toNat - 1] := List.getElem?_eq_getElem hlt
  have hdef := List.all_eq_true.mp hd _ (List.getElem_mem hlt)
  generalize c.val.action[i.toNat - 1] = d at *
  unfold descriptorDefined at hdef
  cases ha : decodeDescriptor d with
  | error e => simp [ha] at hdef
  | ok a =>
    refine ⟨d, a, hget, ha, ?_⟩
    rw [actionAt, if_neg h0, hget]
    simp only [ha, Except.toOption]

@[simp] theorem actionAt_zero (p : Params) : actionAt p 0 = none := rfl

/-! ## Actions -/

/-- An action writes RS and nothing else (10_state.md R48). -/
theorem runAction_eq (a : Instr) (s : State) : ∃ rs, runAction a s = s.withRs rs := by
  cases a <;> exact ⟨_, rfl⟩

/-- What an action can write in RS: the run flag, brightness and speed, or what a SELECT writes (42_interpreter.md
R207 to R213). -/
theorem runAction_rs (a : Instr) (s : State) :
    (∃ run bright speed, (runAction a s).rs = { s.rs with run := run, bright := bright, speed := speed }) ∨
    (∃ mode color, (runAction a s).rs = { s.rs with
      pmode := s.rs.mode, pcolor := s.rs.color, mode := mode, color := color, cd := 255 }) := by
  cases a
  case aSelect km kc mode color => exact .inr ⟨_, _, rfl⟩
  all_goals exact .inl ⟨_, _, _, rfl⟩

/-- The meaning of an action is what the interpreter runs for it (42_interpreter.md R202). -/
theorem exec_action {a : Instr} (h : a.isCommand = false) (s : State) : exec a s = .next (runAction a s) := by
  cases a <;> first | rfl | cases h

/-- Executing an index writes RS and nothing else (42_interpreter.md R202). -/
theorem executeIndex_eq (i : CmdIndex) (s : State) : ∃ rs, executeIndex i s = s.withRs rs := by
  unfold executeIndex
  split
  · exact ⟨s.rs, rfl⟩
  · exact runAction_eq _ _

/-- What executing an index can write in RS. -/
theorem executeIndex_rs (i : CmdIndex) (s : State) :
    (∃ run bright speed, (executeIndex i s).rs = { s.rs with run := run, bright := bright, speed := speed }) ∨
    (∃ mode color, (executeIndex i s).rs = { s.rs with
      pmode := s.rs.mode, pcolor := s.rs.color, mode := mode, color := color, cd := 255 }) := by
  unfold executeIndex
  split
  · exact .inl ⟨_, _, _, rfl⟩
  · exact runAction_rs _ _

/-! ## Entry points -/

/-- Whether the interpreter executes the action of a dispatch's index (42_interpreter.md R203 to R205). -/
def executes (p : Params) (e : Event) : Bool :=
  decide (lookupIndex p e.word ≠ 0) && !(e.isRepeat && suppressed p (lookupIndex p e.word))

/-- DS.REP after a dispatch (42_interpreter.md R203, R204). -/
def repAfter (d : DecoderState) (e : Event) : Byte := if e.isRepeat then satInc8 d.rep else 0

/-- All an interpreter execution can do: DS.REP, RS by the action, and EVT (42_interpreter.md R200). -/
theorem interpret_eq (e : Event) (s : State) :
    ∃ rs, interpret e s = ((s.withRep (repAfter s.ds e)).withRs rs).withEvt
        (eventRecord e.isRepeat e.word (lookupIndex s.params e.word) (executes s.params e)) ∧
      ((∃ run bright speed, rs = { s.rs with run := run, bright := bright, speed := speed }) ∨
       (∃ mode color, rs = { s.rs with
          pmode := s.rs.mode, pcolor := s.rs.color, mode := mode, color := color, cd := 255 })) := by
  cases e with
  | receive w =>
    obtain ⟨rs, h⟩ := executeIndex_eq (lookupIndex s.params w) (s.withRep 0)
    have hrs := executeIndex_rs (lookupIndex s.params w) (s.withRep 0)
    refine ⟨rs, ?_, ?_⟩
    · show (executeIndex (lookupIndex s.params w) (s.withRep 0)).withEvt _ = _
      rw [h]
      by_cases h0 : lookupIndex s.params w = 0#8 <;> simp [repAfter, Event.isRepeat, Event.word, executes, h0]
    · rw [h] at hrs
      exact hrs
  | repeated w =>
    by_cases hs : suppressed s.params (lookupIndex s.params w) = true
    · refine ⟨s.rs, ?_, .inl ⟨_, _, _, rfl⟩⟩
      simp [interpret, onRepeat, hs, repAfter, Event.isRepeat, Event.word, executes]
      rfl
    · obtain ⟨rs, h⟩ := executeIndex_eq (lookupIndex s.params w) (s.withRep (satInc8 s.ds.rep))
      have hrs := executeIndex_rs (lookupIndex s.params w) (s.withRep (satInc8 s.ds.rep))
      refine ⟨rs, ?_, ?_⟩
      · rw [interpret, onRepeat]
        simp only [hs, if_false, h, Bool.false_eq_true]
        by_cases h0 : lookupIndex s.params w = 0#8 <;>
          simp [repAfter, Event.isRepeat, Event.word, executes, hs, h0]
      · rw [h] at hrs
        exact hrs

/-- RS after a dispatch is what the executed action leaves, run with the new DS.REP (42_interpreter.md R202 to R205). -/
theorem interpret_rs (e : Event) (s : State) :
    (interpret e s).rs =
      match executedAction s.params e with
      | none => s.rs
      | some a => (runAction a (s.withRep (repAfter s.ds e))).rs := by
  cases e with
  | receive w =>
    show (executeIndex (lookupIndex s.params w) (s.withRep 0)).rs = _
    have h : executedAction s.params (.receive w) = actionAt s.params (lookupIndex s.params w) := rfl
    rw [h]
    unfold executeIndex
    show (match actionAt s.params (lookupIndex s.params w) with
      | none => s.withRep 0 | some a => runAction a (s.withRep 0)).rs = _
    split <;> rfl
  | repeated w =>
    by_cases hs : suppressed s.params (lookupIndex s.params w) = true
    · simp [interpret, onRepeat, executedAction, Event.isRepeat, Event.word, hs]
    · have h : executedAction s.params (.repeated w) = actionAt s.params (lookupIndex s.params w) := by
        simp [executedAction, Event.isRepeat, Event.word, hs]
      have hr : (interpret (.repeated w) s).rs =
          (executeIndex (lookupIndex s.params w) (s.withRep (satInc8 s.ds.rep))).rs := by
        simp only [interpret, onRepeat, hs, Bool.false_eq_true, if_false, State.withEvt_rs]
      rw [h, hr]
      unfold executeIndex
      show (match actionAt s.params (lookupIndex s.params w) with
        | none => s.withRep (satInc8 s.ds.rep) | some a => runAction a (s.withRep (satInc8 s.ds.rep))).rs = _
      split <;> rfl

/-- What an action leaves in RS depends on RS and DS.REP only (42_interpreter.md R206). -/
theorem runAction_rs_congr (a : Instr) {s t : State} (hrs : s.rs = t.rs) (hrep : s.ds.rep = t.ds.rep) :
    (runAction a s).rs = (runAction a t).rs := by
  cases a <;>
    simp only [runAction, togglePower, raiseBrightness, lowerBrightness, raiseSpeed, lowerSpeed, selectMode,
      stepOperand, State.withRs_rs, hrs, hrep]

/-- Nothing is executed for an unrecognised code. -/
theorem executes_index {p : Params} {e : Event} (h : executes p e = true) : lookupIndex p e.word ≠ 0 := by
  simpa [executes] using (Bool.and_eq_true_iff.mp h).1

end Sys2Proof.Machine
end

