-- ==== Sys2Proof/Laws/Decoder.lean ====
section
/-! SUPPORT. What each step of the decoder step writes (41_decoder.md R166), and one decoder invocation with its
dispatch (R173); the reader's view (10_state.md R37). -/

namespace Sys2Proof.Machine

open Sys2Proof

/-! ## The five steps, field by field -/

@[simp] theorem longGapRule_code (p : Params) (lv : Bool) (t : Ticks) (d : DecoderState) :
    (longGapRule p lv t d).code = d.code := by unfold longGapRule; split <;> rfl

@[simp] theorem longGapRule_last (p : Params) (lv : Bool) (t : Ticks) (d : DecoderState) :
    (longGapRule p lv t d).last = d.last := by unfold longGapRule; split <;> rfl

@[simp] theorem longGapRule_done (p : Params) (lv : Bool) (t : Ticks) (d : DecoderState) :
    (longGapRule p lv t d).done = d.done := by unfold longGapRule; split <;> rfl

@[simp] theorem longGapRule_rep (p : Params) (lv : Bool) (t : Ticks) (d : DecoderState) :
    (longGapRule p lv t d).rep = d.rep := by unfold longGapRule; split <;> rfl

@[simp] theorem headerRule_pos (p : Params) (t : Ticks) (d : DecoderState) :
    (headerRule p t d).pos = d.pos := by unfold headerRule; split <;> rfl

@[simp] theorem headerRule_last (p : Params) (t : Ticks) (d : DecoderState) :
    (headerRule p t d).last = d.last := by unfold headerRule; split <;> rfl

@[simp] theorem headerRule_rep (p : Params) (t : Ticks) (d : DecoderState) :
    (headerRule p t d).rep = d.rep := by unfold headerRule; split <;> rfl

@[simp] theorem shiftRule_pos (p : Params) (lv : Bool) (t : Ticks) (d : DecoderState) :
    (shiftRule p lv t d).pos = d.pos := by unfold shiftRule; split <;> rfl

@[simp] theorem shiftRule_last (p : Params) (lv : Bool) (t : Ticks) (d : DecoderState) :
    (shiftRule p lv t d).last = d.last := by unfold shiftRule; split <;> rfl

@[simp] theorem shiftRule_done (p : Params) (lv : Bool) (t : Ticks) (d : DecoderState) :
    (shiftRule p lv t d).done = d.done := by unfold shiftRule; split <;> rfl

@[simp] theorem shiftRule_armed (p : Params) (lv : Bool) (t : Ticks) (d : DecoderState) :
    (shiftRule p lv t d).armed = d.armed := by unfold shiftRule; split <;> rfl

@[simp] theorem shiftRule_rep (p : Params) (lv : Bool) (t : Ticks) (d : DecoderState) :
    (shiftRule p lv t d).rep = d.rep := by unfold shiftRule; split <;> rfl

@[simp] theorem completionRule_pos (p : Params) (d : DecoderState) :
    (completionRule p d).pos = d.pos := by unfold completionRule; split <;> rfl

@[simp] theorem completionRule_code (p : Params) (d : DecoderState) :
    (completionRule p d).code = d.code := by unfold completionRule; split <;> rfl

@[simp] theorem completionRule_rep (p : Params) (d : DecoderState) :
    (completionRule p d).rep = d.rep := by unfold completionRule; split <;> rfl

@[simp] theorem countRule_code (d : DecoderState) : (countRule d).code = d.code := rfl
@[simp] theorem countRule_last (d : DecoderState) : (countRule d).last = d.last := rfl
@[simp] theorem countRule_done (d : DecoderState) : (countRule d).done = d.done := rfl
@[simp] theorem countRule_armed (d : DecoderState) : (countRule d).armed = d.armed := rfl
@[simp] theorem countRule_rep (d : DecoderState) : (countRule d).rep = d.rep := rfl
@[simp] theorem countRule_pos (d : DecoderState) : (countRule d).pos = inc8 d.pos := rfl

/-- The decoder step does not write DS.REP (90_conflicts.md C3). -/
@[simp] theorem decStep_rep (p : Params) (lv : Bool) (t : Ticks) (d : DecoderState) :
    (decStep p lv t d).1.rep = d.rep := by
  simp [decStep]

/-! ## One invocation -/

/-- All one decoder invocation can do: DS by the decoder step, and its dispatch by the interpreter (41_decoder.md R173). -/
theorem runDecoder_eq (lv : Bool) (t : Ticks) (s : State) :
    runDecoder lv t s =
      match (decStep s.params lv t s.ds).2 with
      | none => s.withDs (decStep s.params lv t s.ds).1
      | some e => interpret e (s.withDs (decStep s.params lv t s.ds).1) := by
  unfold runDecoder
  generalize decStep s.params lv t s.ds = r
  obtain ⟨d, ev⟩ := r
  cases ev <;> rfl

/-- An invocation writes DS, RS and EVT only. -/
theorem runDecoder_frame (lv : Bool) (t : Ticks) (s : State) :
    ∃ rs ds evt, runDecoder lv t s = ((s.withDs ds).withRs rs).withEvt evt := by
  rw [runDecoder_eq]
  split
  · exact ⟨s.rs, (decStep s.params lv t s.ds).1, s.evt, rfl⟩
  · rename_i e _
    obtain ⟨rs, h, -⟩ := interpret_eq e (s.withDs (decStep s.params lv t s.ds).1)
    exact ⟨rs, _, _, h⟩

/-! ## The reader's view -/

/-- 10_state.md R37 for a sound decoder, which is every decoder that cycles from reset leave. -/
theorem decoderView_of_sound {p : Params} {d : DecoderState} (h : DecoderSound p d) :
    (decoderView d = .idle ↔ d.armed = false) ∧
    (decoderView d = .headerSeen ↔ d.armed = true ∧ d.pos = 2) ∧
    (decoderView d = .receivingBits ↔ d.armed = true ∧ 2 < d.pos.toNat) ∧ decoderView d ≠ .complete := by
  unfold decoderView
  cases ha : d.armed
  · simp
  · obtain ⟨hlow, -, -⟩ := h ha
    by_cases hp : d.pos = 2#8
    · simp [hp]
    · have hne : d.pos.toNat ≠ 2 := fun e => hp (BitVec.eq_of_toNat_eq e)
      have hgt : 2 < d.pos.toNat := by omega
      simp [hp, hgt]

end Sys2Proof.Machine
end

