-- ==== Sys2Proof/Laws/Encoder.lean ====
section
/-! SUPPORT. What waveforms are made of and how they are driven (40_encoder.md). -/

namespace Sys2Proof.Machine

open Sys2Proof

/-! ## Length -/

@[simp] theorem waveLen_nil : waveLen [] = 0 := rfl

@[simp] theorem waveLen_cons (g : Segment) (w : List Segment) : waveLen (g :: w) = g.cycles + waveLen w := rfl

@[simp] theorem waveLen_append (u w : List Segment) : waveLen (u ++ w) = waveLen u + waveLen w := by
  induction u with
  | nil => simp
  | cons g u ih => simp [ih, Nat.add_assoc]

@[simp] theorem waveLen_openWindow (w : List Segment) : waveLen (openWindow w) = waveLen w := by
  cases w <;> rfl

@[simp] theorem waveLen_resetWave (p : Params) : waveLen (resetWave p) = p.tRst := rfl

/-! ## Building blocks -/

@[simp] theorem freshSegment_first (l : Bool) (n : Nat) (t : Tag) : (freshSegment l n t).first = true := rfl

@[simp] theorem freshSegment_cycles (l : Bool) (n : Nat) (t : Tag) : (freshSegment l n t).cycles = n := rfl

@[simp] theorem freshSegment_tag (l : Bool) (n : Nat) (t : Tag) : (freshSegment l n t).tag = t := rfl

@[simp] theorem freshSegment_level (l : Bool) (n : Nat) (t : Tag) : (freshSegment l n t).level = l := rfl

/-- The eight pulses of a byte, written out (40_encoder.md R124). -/
theorem byteWave_eq (p : Params) (b s : Byte) :
    byteWave p b s = pulse p ((scale b s).getLsbD 7) ++ (pulse p ((scale b s).getLsbD 6) ++
      (pulse p ((scale b s).getLsbD 5) ++ (pulse p ((scale b s).getLsbD 4) ++
      (pulse p ((scale b s).getLsbD 3) ++ (pulse p ((scale b s).getLsbD 2) ++
      (pulse p ((scale b s).getLsbD 1) ++ (pulse p ((scale b s).getLsbD 0) ++ []))))))) := rfl

theorem byteWave_ne_nil (p : Params) (b s : Byte) : byteWave p b s ≠ [] := by
  simp [byteWave_eq, pulse]

/-- A waveform no cycle of which has been driven, every segment lasting at least one cycle. -/
def Unstarted (w : List Segment) : Prop := ∀ g ∈ w, g.first = true ∧ 1 ≤ g.cycles

theorem Unstarted.sound {w : List Segment} (h : Unstarted w) : WaveSound w :=
  ⟨fun g hg => (h g hg).2, fun g hg => (h g (List.mem_of_mem_tail hg)).1⟩

theorem Unstarted.append {u w : List Segment} (hu : Unstarted u) (hw : Unstarted w) : Unstarted (u ++ w) := by
  intro g hg
  rcases List.mem_append.mp hg with h | h
  · exact hu g h
  · exact hw g h

theorem Unstarted.openWindow {w : List Segment} (h : Unstarted w) : Unstarted (openWindow w) := by
  cases w with
  | nil => exact h
  | cons g w =>
    intro x hx
    rcases List.mem_cons.mp hx with rfl | hx
    · exact h g (List.mem_cons_self ..)
    · exact h x (List.mem_cons_of_mem _ hx)

theorem unstarted_pulse {p : Params} (hp : p.WellFormed) (v : Bool) : Unstarted (pulse p v) := by
  obtain ⟨⟨_, h1, h2, h3, h4, _⟩, _⟩ := hp
  intro g hg
  cases v <;> simp [pulse] at hg <;> rcases hg with rfl | rfl <;> simp_all

theorem unstarted_bitsWave {p : Params} (hp : p.WellFormed) (v : Byte) (n : Nat) : Unstarted (bitsWave p v n) := by
  induction n with
  | zero => intro g hg; cases hg
  | succ n ih => exact (unstarted_pulse hp _).append ih

theorem unstarted_byteWave {p : Params} (hp : p.WellFormed) (b s : Byte) : Unstarted (byteWave p b s) :=
  unstarted_bitsWave hp _ _

theorem unstarted_pixelWave {p : Params} (hp : p.WellFormed) (c : Color) (s : Byte) :
    Unstarted (pixelWave p c s) :=
  ((((unstarted_byteWave hp _ _).append (unstarted_byteWave hp _ _)).append
    (unstarted_byteWave hp _ _)).append (unstarted_byteWave hp _ _)).openWindow

theorem unstarted_resetWave {p : Params} (hp : p.WellFormed) : Unstarted (resetWave p) := by
  obtain ⟨⟨_, _, _, _, _, h, _⟩, _⟩ := hp
  intro g hg
  simp [resetWave] at hg
  subst hg
  exact ⟨rfl, h⟩

theorem unstarted_frameWave {p : Params} (hp : p.WellFormed) (px : List Color) (s : Byte) :
    Unstarted (frameWave p px s) := by
  refine Unstarted.append ?_ (unstarted_resetWave hp)
  induction px with
  | nil => intro g hg; cases hg
  | cons c px ih => exact (unstarted_pixelWave hp c s).append ih

/-- The windows of a frame, as one list (40_encoder.md R127). -/
theorem pixelsWave_eq (p : Params) (s : Byte) (px : List Color) :
    pixelsWave p s px = (px.map (fun c => pixelWave p c s)).flatten := by
  induction px with
  | nil => rfl
  | cons c px ih => simp [pixelsWave, ih]

/-! ## Driving -/

/-- One clock edge of a sound waveform takes one cycle off it (10_state.md R42). -/
theorem waveLen_tickWave {w : List Segment} (h : WaveSound w) : waveLen (tickWave w) = waveLen w - 1 := by
  cases w with
  | nil => rfl
  | cons g w =>
    have := h.1 g (List.mem_cons_self ..)
    simp only [tickWave]
    split
    · simp; omega
    · simp; omega

/-- The level at an offset after a clock edge is the level at the next offset before it (40_encoder.md R129). -/
theorem levelAt_tickWave {w : List Segment} (h : WaveSound w) (k : Nat) :
    levelAt (tickWave w) k = levelAt w (k + 1) := by
  cases w with
  | nil => rfl
  | cons g w =>
    have := h.1 g (List.mem_cons_self ..)
    simp only [tickWave]
    split
    · have hg : g.cycles = 1 := by omega
      simp [levelAt, hg]
    · by_cases hk : k < g.cycles - 1
      · have : k + 1 < g.cycles := by omega
        simp [levelAt, hk, this]
      · have h2 : ¬ k + 1 < g.cycles := by omega
        have h3 : k - (g.cycles - 1) = k + 1 - g.cycles := by omega
        simp [levelAt, hk, h2, h3]

theorem waveSound_tickWave {w : List Segment} (h : WaveSound w) : WaveSound (tickWave w) := by
  cases w with
  | nil => exact h
  | cons g w =>
    have hw : ∀ x ∈ w, 1 ≤ x.cycles := fun x hx => h.1 x (List.mem_cons_of_mem _ hx)
    simp only [tickWave]
    split
    · exact ⟨hw, fun x hx => h.2 x (List.mem_of_mem_tail hx)⟩
    · refine ⟨fun x hx => ?_, h.2⟩
      rcases List.mem_cons.mp hx with rfl | hx
      · show 1 ≤ g.cycles - 1
        omega
      · exact hw x hx

/-- What led_dout shows is the level at offset 0 (10_state.md R42). -/
theorem ledLevel_eq_levelAt {w : List Segment} (h : WaveSound w) : ledLevel w = levelAt w 0 := by
  cases w with
  | nil => rfl
  | cons g w =>
    have : 0 < g.cycles := h.1 g (List.mem_cons_self ..)
    simp [ledLevel, levelAt, this]

/-- A sound waveform is empty exactly when no cycle of it remains. -/
theorem waveSound_isEmpty {w : List Segment} (h : WaveSound w) : w.isEmpty = decide (waveLen w = 0) := by
  cases w with
  | nil => rfl
  | cons g w =>
    have : 1 ≤ g.cycles := h.1 g (List.mem_cons_self ..)
    simp; omega

/-! ## Commands -/

/-- An operation that starts a waveform starts an unstarted one (40_encoder.md R129). -/
theorem exec_startsWave {i : Instr} {s t : State} (hi : startsWave i = true) (h : exec i s = .next t) :
    Unstarted t.enc.wave := by
  have hp := s.cfg.property
  cases i <;> simp [startsWave] at hi <;> simp only [exec, execSendByte, execSendPixel, execSendFrame, execSendReset,
    execFrameTick, Host.Outcome.next.injEq] at h <;> subst h
  · exact (unstarted_byteWave hp _ _).openWindow
  · exact unstarted_pixelWave hp _ _
  · exact unstarted_frameWave hp _ _
  · exact unstarted_resetWave hp
  · exact unstarted_frameWave hp _ _

end Sys2Proof.Machine
end

