-- ==== Sys2Proof/Laws/FrontEnd.lean ====
section
/-! SUPPORT. The capture front end's clock edge, field by field (41_decoder.md R160 to R163). -/

namespace Sys2Proof.Machine

open Sys2Proof

/-! ## Pieces -/

@[simp] theorem synchronise_s1 (pin : Bool) (f : FrontEnd) : (synchronise pin f).s1 = pin := rfl
@[simp] theorem synchronise_s2 (pin : Bool) (f : FrontEnd) : (synchronise pin f).s2 = f.s1 := rfl
@[simp] theorem synchronise_prev (pin : Bool) (f : FrontEnd) : (synchronise pin f).prev = f.s2 := rfl
@[simp] theorem synchronise_ticks (pin : Bool) (f : FrontEnd) : (synchronise pin f).ticks = f.ticks := rfl
@[simp] theorem synchronise_presc (pin : Bool) (f : FrontEnd) : (synchronise pin f).presc = f.presc := rfl
@[simp] theorem synchronise_pend (pin : Bool) (f : FrontEnd) : (synchronise pin f).pend = f.pend := rfl

@[simp] theorem countTick_s1 (p : Params) (f : FrontEnd) : (countTick p f).s1 = f.s1 := by
  unfold countTick; split <;> rfl

@[simp] theorem countTick_s2 (p : Params) (f : FrontEnd) : (countTick p f).s2 = f.s2 := by
  unfold countTick; split <;> rfl

@[simp] theorem countTick_prev (p : Params) (f : FrontEnd) : (countTick p f).prev = f.prev := by
  unfold countTick; split <;> rfl

@[simp] theorem countTick_pend (p : Params) (f : FrontEnd) : (countTick p f).pend = f.pend := by
  unfold countTick; split <;> rfl

/-- The prescaler after a cycle of counting (41_decoder.md R161). -/
theorem countTick_presc (p : Params) (f : FrontEnd) :
    (countTick p f).presc = if f.presc = p.tickDiv - 1 then 0 else f.presc + 1 := by
  unfold countTick; split <;> rfl

/-- The ticks after a cycle of counting (41_decoder.md R161). -/
theorem countTick_ticks (p : Params) (f : FrontEnd) :
    (countTick p f).ticks = if f.presc = p.tickDiv - 1 then satInc16 f.ticks else f.ticks := by
  unfold countTick; split <;> rfl

/-- The prescaler stays below TICK_DIV (10_state.md R40). -/
theorem countTick_presc_lt {p : Params} {f : FrontEnd} (h : f.presc < p.tickDiv) :
    (countTick p f).presc < p.tickDiv := by
  rw [countTick_presc]
  split <;> omega

/-! ## The clock edge -/

@[simp] theorem clockFrontEnd_s1 (pin : Bool) (s : State) : (clockFrontEnd pin s).s1 = pin := by
  unfold clockFrontEnd; split <;> rfl

@[simp] theorem clockFrontEnd_s2 (pin : Bool) (s : State) : (clockFrontEnd pin s).s2 = s.fe.s1 := by
  unfold clockFrontEnd; split
  · rfl
  · simp [pendEdge]

@[simp] theorem clockFrontEnd_prev (pin : Bool) (s : State) : (clockFrontEnd pin s).prev = s.fe.s2 := by
  unfold clockFrontEnd; split
  · rfl
  · simp [pendEdge]

/-- With a dispatch the counters and the pending flag go to 0 (41_decoder.md R162). -/
theorem clockFrontEnd_dispatch {pin : Bool} {s : State} (h : pinDispatch s = true) :
    clockFrontEnd pin s =
      { s1 := pin, s2 := s.fe.s1, prev := s.fe.s2, ticks := 0, presc := 0, pend := false } := by
  unfold clockFrontEnd
  rw [if_pos h]
  rfl

/-- Without one the tick counter counts and an edge in a masked cycle pends (41_decoder.md R161, R163). -/
theorem clockFrontEnd_count {pin : Bool} {s : State} (h : pinDispatch s = false) :
    clockFrontEnd pin s =
      { s1 := pin, s2 := s.fe.s1, prev := s.fe.s2, ticks := (countTick s.params s.fe).ticks,
        presc := (countTick s.params s.fe).presc,
        pend := s.fe.pend || (captureMasked s && edgeDetected s) } := by
  unfold clockFrontEnd
  rw [if_neg (by simp [h])]
  by_cases hp : s.fe.presc = s.params.tickDiv - 1 <;> simp only [countTick, pendEdge, hp, if_true, if_false] <;> rfl

/-- A masked cycle dispatches nothing (41_decoder.md R163). -/
theorem pinDispatch_of_masked {s : State} (h : captureMasked s = true) : pinDispatch s = false := by
  simp [pinDispatch, h]

/-- No cycle is masked under CAPTURE_MASK = NONE (41_decoder.md R163). -/
theorem captureMasked_of_none {s : State} (h : s.params.captureMask = .none) : captureMasked s = false := by
  unfold captureMasked
  split
  · rfl
  · simp [h]

end Sys2Proof.Machine
end

