-- ==== Sys2Proof/Laws/Cycle.lean ====
section
/-! SUPPORT. What a cycle and an accepted operation can do to each part of the state (20_memory.md R64, R65). -/

namespace Sys2Proof.Machine

open Sys2Proof

/-! ## Operations -/

/-- `t` differs from `s` in RS, DS, ENC.WAVE and EVT at most. -/
def OperationFrame (s t : State) : Prop :=
  t.cfg = s.cfg ∧ t.fe = s.fe ∧ t.err = s.err ∧ t.script = s.script ∧ t.stream = s.stream ∧ t.cycle = s.cycle

theorem runDecoder_operationFrame (lv : Bool) (t : Ticks) (s : State) : OperationFrame s (runDecoder lv t s) := by
  obtain ⟨rs, ds, evt, h⟩ := runDecoder_frame lv t s
  rw [h]
  exact ⟨rfl, rfl, rfl, rfl, rfl, rfl⟩

theorem interpret_operationFrame (e : Event) (s : State) : OperationFrame s (interpret e s) := by
  obtain ⟨rs, h, -⟩ := interpret_eq e s
  rw [h]
  exact ⟨rfl, rfl, rfl, rfl, rfl, rfl⟩

/-- An operation runs, and writes nothing but RS, DS, ENC.WAVE and EVT (10_state.md R48). -/
theorem exec_frame (i : Instr) (s : State) : ∃ t, exec i s = .next t ∧ OperationFrame s t := by
  cases i
  case decEdge lv t => exact ⟨_, rfl, runDecoder_operationFrame lv t s⟩
  case cmdReceive w => exact ⟨_, rfl, interpret_operationFrame (.receive w) s⟩
  case cmdRepeat w => exact ⟨_, rfl, interpret_operationFrame (.repeated w) s⟩
  all_goals exact ⟨_, rfl, rfl, rfl, rfl, rfl, rfl, rfl⟩

/-- The interpreter leaves ENC.WAVE alone. -/
theorem interpret_enc (e : Event) (s : State) : (interpret e s).enc = s.enc := by
  obtain ⟨rs, h, -⟩ := interpret_eq e s
  rw [h]
  rfl

/-- A decoder invocation leaves ENC.WAVE alone. -/
theorem runDecoder_enc (lv : Bool) (t : Ticks) (s : State) : (runDecoder lv t s).enc = s.enc := by
  obtain ⟨rs, ds, evt, h⟩ := runDecoder_frame lv t s
  rw [h]
  rfl

/-- An operation that starts no waveform leaves ENC.WAVE alone (40_encoder.md R129). -/
theorem exec_wave {i : Instr} {s t : State} (hi : startsWave i = false) (h : exec i s = .next t) :
    t.enc = s.enc := by
  cases i <;> simp only [startsWave, Bool.true_eq_false] at hi
  case decEdge lv k => cases h; exact runDecoder_enc lv k s
  case cmdReceive w => cases h; exact interpret_enc (.receive w) s
  case cmdRepeat w => cases h; exact interpret_enc (.repeated w) s
  all_goals
    cases h
    rfl

/-! ## The outside world -/

@[simp] theorem passCycle_cfg (s : State) : (passCycle s).cfg = s.cfg := rfl
@[simp] theorem passCycle_rs (s : State) : (passCycle s).rs = s.rs := rfl
@[simp] theorem passCycle_ds (s : State) : (passCycle s).ds = s.ds := rfl
@[simp] theorem passCycle_fe (s : State) : (passCycle s).fe = s.fe := rfl
@[simp] theorem passCycle_enc (s : State) : (passCycle s).enc = s.enc := rfl
@[simp] theorem passCycle_err (s : State) : (passCycle s).err = s.err := rfl
@[simp] theorem passCycle_evt (s : State) : (passCycle s).evt = s.evt := rfl
@[simp] theorem passCycle_script (s : State) : (passCycle s).script = s.script.tail := rfl
@[simp] theorem passCycle_stream (s : State) : (passCycle s).stream = streamAfter s := rfl
@[simp] theorem passCycle_cycle (s : State) : (passCycle s).cycle = s.cycle + 1 := rfl

/-! ## The clock edge -/

@[simp] theorem clockEdge_cfg (s : State) : (clockEdge s).cfg = s.cfg := rfl
@[simp] theorem clockEdge_rs (s : State) : (clockEdge s).rs = s.rs := rfl
@[simp] theorem clockEdge_ds (s : State) : (clockEdge s).ds = s.ds := rfl
@[simp] theorem clockEdge_fe (s : State) : (clockEdge s).fe = clockFrontEnd (currentInput s).irIn s := rfl
@[simp] theorem clockEdge_enc (s : State) : (clockEdge s).enc = { wave := tickWave s.enc.wave } := rfl
@[simp] theorem clockEdge_err (s : State) : (clockEdge s).err = s.err := rfl
@[simp] theorem clockEdge_evt (s : State) : (clockEdge s).evt = { s.evt with valid := false } := rfl
@[simp] theorem clockEdge_script (s : State) : (clockEdge s).script = s.script.tail := rfl
@[simp] theorem clockEdge_stream (s : State) : (clockEdge s).stream = streamAfter s := rfl
@[simp] theorem clockEdge_cycle (s : State) : (clockEdge s).cycle = s.cycle + 1 := rfl

/-! ## The cycle's own work -/

/-- A pin dispatch writes DS, RS and EVT on top of the clock edge (41_decoder.md R162, R173). -/
theorem advance_eq (s : State) :
    ∃ rs ds evt, advance s = (((clockEdge s).withDs ds).withRs rs).withEvt evt := by
  unfold advance
  split
  · exact runDecoder_frame _ _ _
  · exact ⟨s.rs, s.ds, { s.evt with valid := false }, rfl⟩

/-- Without a pin dispatch it is the clock edge alone. -/
theorem advance_of_no_dispatch {s : State} (h : pinDispatch s = false) : advance s = clockEdge s := by
  unfold advance
  rw [if_neg (by simp [h])]

/-- With one it is a decoder invocation on top (41_decoder.md R162). -/
theorem advance_of_dispatch {s : State} (h : pinDispatch s = true) :
    advance s = runDecoder s.fe.s2 s.fe.ticks (clockEdge s) := by
  unfold advance
  rw [if_pos h]
  rfl

@[simp] theorem advance_cfg (s : State) : (advance s).cfg = s.cfg := by
  obtain ⟨_, _, _, h⟩ := advance_eq s; rw [h]; rfl

@[simp] theorem advance_fe (s : State) : (advance s).fe = clockFrontEnd (currentInput s).irIn s := by
  obtain ⟨_, _, _, h⟩ := advance_eq s; rw [h]; rfl

@[simp] theorem advance_enc (s : State) : (advance s).enc = { wave := tickWave s.enc.wave } := by
  obtain ⟨_, _, _, h⟩ := advance_eq s; rw [h]; rfl

@[simp] theorem advance_err (s : State) : (advance s).err = s.err := by
  obtain ⟨_, _, _, h⟩ := advance_eq s; rw [h]; rfl

@[simp] theorem advance_script (s : State) : (advance s).script = s.script.tail := by
  obtain ⟨_, _, _, h⟩ := advance_eq s; rw [h]; rfl

@[simp] theorem advance_stream (s : State) : (advance s).stream = streamAfter s := by
  obtain ⟨_, _, _, h⟩ := advance_eq s; rw [h]; rfl

@[simp] theorem advance_cycle (s : State) : (advance s).cycle = s.cycle + 1 := by
  obtain ⟨_, _, _, h⟩ := advance_eq s; rw [h]; rfl

/-! ## One step -/

/-- The four things a cycle can be: reset; an accepted operation, an accepted illegal word, or no accepted word,
each on top of the cycle's own work. -/
theorem step_cases {s t : State} (h : step s = .next t) :
    (rstIn s = true ∧ t = resetCycle s) ∨
    (rstIn s = false ∧ ∃ i, acceptedInstr s = some i ∧ decodeCommand (cmdWord s) = .ok i ∧
      ready (.ok i) s = true ∧ cmdAccepted s = true ∧ exec i (advance s) = .next t) ∨
    (rstIn s = false ∧ illegalAccepted s = true ∧ acceptedInstr s = none ∧ t = (advance s).withErr true) ∨
    (rstIn s = false ∧ cmdAccepted s = false ∧ acceptedInstr s = none ∧ illegalAccepted s = false ∧ t = advance s) := by
  unfold step at h
  split at h
  · rename_i hr
    exact .inl ⟨hr, by simpa using h.symm⟩
  · rename_i hr
    have hr' : rstIn s = false := by simpa using hr
    split at h
    · rename_i ha
      unfold runWord at h
      split at h
      · rename_i e he
        refine .inr (.inr (.inl ⟨hr', ?_, ?_, ?_⟩))
        · simp [illegalAccepted, ha, he, Except.toOption]
        · simp [acceptedInstr, ha, he, Except.toOption]
        · simpa [raiseIllegalCommand] using h.symm
      · rename_i i hi
        refine .inr (.inl ⟨hr', i, ?_, hi, ?_, ha, h⟩)
        · simp [acceptedInstr, ha, hi, Except.toOption]
        · have := (Bool.and_eq_true_iff.mp ha).2
          rw [cmdReady, hi] at this
          exact (Bool.and_eq_true_iff.mp this).2
    · rename_i ha
      have ha' : cmdAccepted s = false := by simpa using ha
      exact .inr (.inr (.inr ⟨hr', ha', by simp [acceptedInstr, ha'], by simp [illegalAccepted, ha'],
        by simpa using h.symm⟩))

/-- What every cycle without reset does to the parts no operation writes, and to ENC.WAVE when none is started. -/
theorem step_parts {s t : State} (hr : rstIn s = false) (h : step s = .next t) :
    t.cfg = s.cfg ∧ t.fe = clockFrontEnd (currentInput s).irIn s ∧ t.script = s.script.tail ∧
    t.stream = streamAfter s ∧ t.cycle = s.cycle + 1 ∧
    (waveStarted s = false → t.enc.wave = tickWave s.enc.wave) ∧
    (waveStarted s = true → Unstarted t.enc.wave) := by
  rcases step_cases h with ⟨h1, -⟩ | ⟨-, i, hi, -, -, -, he⟩ | ⟨-, -, hi, rfl⟩ | ⟨-, -, hi, -, rfl⟩
  · rw [hr] at h1; cases h1
  · obtain ⟨t', ht, hc, hf, -, hs, hst, hcy⟩ := exec_frame i (advance s)
    have htt : t' = t := by rw [ht] at he; simpa using he
    subst htt
    refine ⟨by simpa using hc, by simpa using hf, by simpa using hs, by simpa using hst, by simpa using hcy, ?_, ?_⟩ <;>
      simp only [waveStarted, hi, Option.any_some]
    · intro hw
      rw [exec_wave hw he, advance_enc]
    · intro hw
      exact exec_startsWave hw he
  · simp [waveStarted, hi]
  · simp [waveStarted, hi]

/-! ## The interpreter in a cycle -/

/-- In a cycle with a pin dispatch the accepted operation, if any, leaves RS and EVT alone (20_memory.md R65). -/
theorem exec_beside_dispatch {i : Instr} {s u t : State} (hp : pinDispatch s = true) (hr : ready (.ok i) s = true)
    (h : exec i u = .next t) : t.rs = u.rs ∧ t.ds = u.ds ∧ t.evt = u.evt := by
  cases i <;> simp [ready, hp] at hr <;> cases h <;> exact ⟨rfl, rfl, rfl⟩

/-- A decoder invocation that dispatches is the interpreter's run on the decoder's new state (41_decoder.md R173). -/
theorem runDecoder_of_event {lv : Bool} {k : Ticks} {s : State} {e : Event} (h : (decStep s.params lv k s.ds).2 = some e) :
    runDecoder lv k s = interpret e (s.withDs (decStep s.params lv k s.ds).1) := by
  rw [runDecoder_eq, h]

/-- A decoder invocation without a dispatch writes DS only. -/
theorem runDecoder_of_no_event {lv : Bool} {k : Ticks} {s : State} (h : (decStep s.params lv k s.ds).2 = none) :
    runDecoder lv k s = s.withDs (decStep s.params lv k s.ds).1 := by
  rw [runDecoder_eq, h]

/-- Without a pin dispatch the cycle's dispatch is the accepted operation's. -/
theorem cycleEvent_of_accepted {s : State} {i : Instr} (hp : pinDispatch s = false) (hi : acceptedInstr s = some i) :
    cycleEvent s = instrEvent s.params s.ds i := by
  simp [cycleEvent, hp, hi]

/-- A cycle with a dispatch is, in RS and EVT, the interpreter's run from the Render State, DS.REP and configuration of its
start (42_interpreter.md R200). -/
theorem step_interprets {s t : State} {e : Event} (hr : rstIn s = false) (h : step s = .next t)
    (he : cycleEvent s = some e) :
    acceptedInstr s ≠ some .frameTick ∧ ∃ v : State, v.cfg = s.cfg ∧ v.rs = s.rs ∧ v.ds.rep = s.ds.rep ∧
      t.rs = (interpret e v).rs ∧ t.evt = (interpret e v).evt := by
  cases hp : pinDispatch s
  · rcases step_cases h with ⟨h1, -⟩ | ⟨-, i, hi, hd, -, -, hx⟩ | ⟨-, -, hi, -⟩ | ⟨-, -, hi, -, -⟩
    · rw [hr] at h1; cases h1
    · rw [cycleEvent_of_accepted hp hi] at he
      rw [advance_of_no_dispatch hp] at hx
      cases i <;> simp only [instrEvent, reduceCtorEq] at he
      case decEdge lv k =>
        refine ⟨by simp [hi], (clockEdge s).withDs (decStep s.params lv k s.ds).1, rfl, rfl, by simp, ?_⟩
        have := runDecoder_of_event (s := clockEdge s) he
        simp only [exec, execDecEdge, this, Host.Outcome.next.injEq] at hx
        rw [← hx]
        exact ⟨rfl, rfl⟩
      case cmdReceive w =>
        cases he; cases hx
        exact ⟨by simp [hi], clockEdge s, rfl, rfl, rfl, rfl, rfl⟩
      case cmdRepeat w =>
        cases he; cases hx
        exact ⟨by simp [hi], clockEdge s, rfl, rfl, rfl, rfl, rfl⟩
    all_goals
      exfalso
      simp [cycleEvent, hp, hi] at he
  · have hev : (decStep s.params s.fe.s2 s.fe.ticks s.ds).2 = some e := by simpa [cycleEvent, hp] using he
    have hadv : advance s = interpret e ((clockEdge s).withDs (decStep s.params s.fe.s2 s.fe.ticks s.ds).1) := by
      rw [advance_of_dispatch hp]
      exact runDecoder_of_event (s := clockEdge s) hev
    refine ⟨?_, (clockEdge s).withDs (decStep s.params s.fe.s2 s.fe.ticks s.ds).1, rfl, rfl, by simp, ?_⟩
    · intro hi
      rcases step_cases h with ⟨h1, -⟩ | ⟨-, i, hi', -, hready, -, -⟩ | ⟨-, -, hi', -⟩ | ⟨-, -, hi', -, -⟩
      · rw [hr] at h1; cases h1
      · rw [hi] at hi'; cases hi'
        simp [ready, hp] at hready
      all_goals rw [hi] at hi'; cases hi'
    · rw [← hadv]
      rcases step_cases h with ⟨h1, -⟩ | ⟨-, i, -, -, hready, -, hx⟩ | ⟨-, -, -, rfl⟩ | ⟨-, -, -, -, rfl⟩
      · rw [hr] at h1; cases h1
      · exact ⟨(exec_beside_dispatch hp hready hx).1, (exec_beside_dispatch hp hready hx).2.2⟩
      all_goals exact ⟨rfl, rfl⟩

/-- In a cycle without a dispatch only an accepted FRAME_TICK writes RS (10_state.md R48). -/
theorem step_rs_of_no_event {s t : State} (hr : rstIn s = false) (h : step s = .next t) (he : cycleEvent s = none) :
    t.rs = if acceptedInstr s = some .frameTick then countDown s.params s.rs else s.rs := by
  have hadv : (advance s).rs = s.rs := by
    cases hp : pinDispatch s
    · rw [advance_of_no_dispatch hp]; rfl
    · have hev : (decStep s.params s.fe.s2 s.fe.ticks s.ds).2 = none := by simpa [cycleEvent, hp] using he
      rw [advance_of_dispatch hp, runDecoder_of_no_event (s := clockEdge s) hev]
      rfl
  rcases step_cases h with ⟨h1, -⟩ | ⟨-, i, hi, hd, hready, -, hx⟩ | ⟨-, -, hi, rfl⟩ | ⟨-, -, hi, -, rfl⟩
  · rw [hr] at h1; cases h1
  · cases hp : pinDispatch s
    · rw [cycleEvent_of_accepted hp hi] at he
      have hc := decodeCommand_isCommand hd
      cases i <;> simp only [instrEvent, reduceCtorEq, Instr.isCommand] at he hc
      case frameTick =>
        cases hx
        rw [if_pos hi]
        simp [hadv, State.params]
      case decEdge lv k =>
        rw [advance_of_no_dispatch hp] at hx
        have := runDecoder_of_no_event (s := clockEdge s) he
        simp only [exec, execDecEdge, this, Host.Outcome.next.injEq] at hx
        rw [← hx]
        simp [hi]
      all_goals
        cases hx
        simp [hi, hadv, startWave]
    · have hne : i ≠ .frameTick := by
        rintro rfl
        simp [ready, hp] at hready
      rw [(exec_beside_dispatch hp hready hx).1, hadv, hi, if_neg (by simpa using hne)]
  all_goals simp [hi, hadv]

/-! ## The words still ahead (70_reset_and_hazards.md R306) -/

/-- With no word ahead the stream is empty. -/
theorem stream_of_no_words {s : State} (h : wordsAhead s = false) : s.stream = [] := by
  simpa using (Bool.or_eq_false_iff.mp h).1

/-- With no word ahead a scripted cycle presents none, so it accepts none. -/
theorem cmdAccepted_of_no_words {s : State} (h : wordsAhead s = false) (hs : s.script ≠ []) :
    cmdAccepted s = false := by
  have hstream := stream_of_no_words h
  have hscript := (Bool.or_eq_false_iff.mp h).2
  cases hc : s.script with
  | nil => exact absurd hc hs
  | cons c rest =>
    rw [hc, List.any_cons, Bool.or_eq_false_iff] at hscript
    have hv : cmdValid s = false := by
      unfold cmdValid currentInput
      rw [hc]
      cases hh : c.host <;> simp_all
    rw [cmdAccepted, hv, Bool.false_and]

/-- Once no word is ahead, none ever is. -/
theorem wordsAhead_step {s t : State} (h : wordsAhead s = false) (ht : step s = .next t) : wordsAhead t = false := by
  have hstream := stream_of_no_words h
  have hafter : streamAfter s = [] := by
    unfold streamAfter
    split <;> simp [hstream]
  have hparts : t.script = s.script.tail ∧ t.stream = streamAfter s := by
    cases hr : rstIn s
    · exact ⟨(step_parts hr ht).2.2.1, (step_parts hr ht).2.2.2.1⟩
    · unfold step at ht
      rw [if_pos hr] at ht
      cases ht
      exact ⟨rfl, rfl⟩
  have hscript := (Bool.or_eq_false_iff.mp h).2
  rw [wordsAhead, hparts.1, hparts.2, hafter]
  simp only [List.isEmpty_nil, Bool.not_true, Bool.false_or, List.any_eq_false] at hscript ⊢
  exact fun c hc => hscript c (List.mem_of_mem_tail hc)

end Sys2Proof.Machine
end

