-- ==== Sys2Proof/Laws/PerInstr.lean ====
section
/-! SUPPORT. The lemmas stated for each operation: the bits of an encoding fit the operation's own row of
spec/opcode_table.json. -/

namespace Sys2Proof.Laws

open Sys2Proof

/-- The bits have the operation code and the match bits of some row (30_encoding.md R83, R96). -/
def FitsRow : Encoded → Prop
  | .command cw => ∃ o : CommandOp, opField cw = o.code ∧ cw &&& o.maskBits = o.matchBits
  | .descriptor d => ∃ k : ActionKind, kindField d = k.code ∧ d &&& k.maskBits = k.matchBits

namespace EncodeFitsRow

/-- The encoding of the operation fits a row. -/
def Statement (i : Instr) : Prop := FitsRow (encode i)

theorem nop : Statement .nop := ⟨.nop, by decide, by decide⟩

theorem sendByte (b s : Byte) : Statement (.sendByte b s) := by
  refine ⟨.sendByte, opField_packCommand _ _ _ _, ?_⟩
  have hmask : CommandOp.maskBits .sendByte = packCommand 0xFF 0x00 0xFFFF (0xFFFFFF#24 ++ 0#8) := by decide
  have hmatch : CommandOp.matchBits .sendByte = packCommand 0x01 0x00 0x0000 (0#24 ++ 0#8) := by decide
  rw [hmask, hmatch, packCommand_and]
  have hc : (0#24 ++ b) &&& (0xFFFFFF#24 ++ 0#8) = (0#24 ++ 0#8 : BitVec 32) := by
    rw [BitVec.and_append]; simp
  rw [hc]; simp

theorem sendPixel (c : Color) (s : Byte) : Statement (.sendPixel c s) := by
  refine ⟨.sendPixel, opField_packCommand _ _ _ _, ?_⟩
  have hmask : CommandOp.maskBits .sendPixel = packCommand 0xFF 0x00 0xFFFF 0 := by decide
  have hmatch : CommandOp.matchBits .sendPixel = packCommand 0x02 0x00 0x0000 0 := by decide
  rw [hmask, hmatch, packCommand_and]; simp

theorem sendFrame (c : Color) (s : Byte) : Statement (.sendFrame c s) := by
  refine ⟨.sendFrame, opField_packCommand _ _ _ _, ?_⟩
  have hmask : CommandOp.maskBits .sendFrame = packCommand 0xFF 0x00 0xFFFF 0 := by decide
  have hmatch : CommandOp.matchBits .sendFrame = packCommand 0x03 0x00 0x0000 0 := by decide
  rw [hmask, hmatch, packCommand_and]; simp

theorem sendReset : Statement .sendReset := ⟨.sendReset, by decide, by decide⟩

theorem frameTick : Statement .frameTick := ⟨.frameTick, by decide, by decide⟩

theorem decEdge (lv : Bool) (t : Ticks) : Statement (.decEdge lv t) := by
  refine ⟨.decEdge, opField_packCommand _ _ _ _, ?_⟩
  have hmask : CommandOp.maskBits .decEdge = packCommand 0xFF 0xFE 0x0000 0xFFFFFFFF := by decide
  have hmatch : CommandOp.matchBits .decEdge = packCommand 0x10 0x00 0x0000 0 := by decide
  have hs : (0#7 ++ BitVec.ofBool lv) &&& 0xFE = (0x00 : BitVec 8) := by cases lv <;> decide
  rw [hmask, hmatch, packCommand_and, hs]; simp

theorem cmdReceive (w : CodeWord) : Statement (.cmdReceive w) := by
  refine ⟨.cmdReceive, opField_packCommand _ _ _ _, ?_⟩
  have hmask : CommandOp.maskBits .cmdReceive = packCommand 0xFF 0xFF 0x0000 0xFFFFFFFF := by decide
  have hmatch : CommandOp.matchBits .cmdReceive = packCommand 0x11 0x00 0x0000 0 := by decide
  rw [hmask, hmatch, packCommand_and]; simp

theorem cmdRepeat (w : CodeWord) : Statement (.cmdRepeat w) := by
  refine ⟨.cmdRepeat, opField_packCommand _ _ _ _, ?_⟩
  have hmask : CommandOp.maskBits .cmdRepeat = packCommand 0xFF 0xFF 0x0000 0xFFFFFFFF := by decide
  have hmatch : CommandOp.matchBits .cmdRepeat = packCommand 0x12 0x00 0x0000 0 := by decide
  rw [hmask, hmatch, packCommand_and]; simp

theorem aNop : Statement .aNop := ⟨.nop, by decide, by decide⟩

theorem aPower : Statement .aPower := ⟨.power, by decide, by decide⟩

theorem aBrightUp : Statement .aBrightUp := ⟨.brightUp, by decide, by decide⟩

theorem aBrightDown : Statement .aBrightDown := ⟨.brightDown, by decide, by decide⟩

theorem aSpeedUp : Statement .aSpeedUp := ⟨.speedUp, by decide, by decide⟩

theorem aSpeedDown : Statement .aSpeedDown := ⟨.speedDown, by decide, by decide⟩

theorem aSelect (km kc : Bool) (mode : ModeTag) (color : Color) : Statement (.aSelect km kc mode color) :=
  ⟨.select, kindField_packDescriptor _ _ _ _ _, packDescriptor_select_row km kc mode color⟩

end EncodeFitsRow

end Sys2Proof.Laws
end

