-- ==== Sys2Proof/Tests/Slice0.lean ====
section
/-! SUPPORT. The model's own tests. Expected values are those of 95_test_vectors.md (its section is named in each comment)
or are worked by hand from the encoding tables of 30_encoding.md; none is the model's own answer. The second half gives, for every
statement with hypotheses, concrete states and operands that meet them. -/

namespace Sys2Proof.Tests

open Sys2Proof Sys2Proof.Machine

/-! ## The example configuration (95_test_vectors.md section 0) -/

/-- The example parameters; F_CLK, of which the section says nothing, is 16 MHz. -/
def exampleParams : Params where
  fClk := 16000000
  nPix := 2
  t0h := 2
  t0l := 6
  t1h := 5
  t1l := 4
  tRst := 20
  tickDiv := 1
  tGap := 700
  tHdrHi := 350
  tHdrLo := 180
  tShort := 110
  kBits := 64
  nCmd := 7
  codeTable := [0x10EF, 0x20DF, 0x1AE5, 0x30CF, 0x40BF, 0x50AF, 0x609F]
  action := [0x100000000000, 0x640100000000, 0x6800FF000000, 0x200000000000, 0x300000000000, 0x400000000000,
    0x500000000000]
  exLo := 1
  exHi := 3
  cdStep := 5
  pattern := []
  captureMask := .none
  rstRun := true
  rstBright := 255
  rstSpeed := 0
  rstMode := 0
  rstColor := 0x00000000

/-- The example configuration. -/
def exampleConfig : Config := ⟨exampleParams, by decide⟩

/-- The same with the mask, a reset code of 1 cycle and 2 cycles a tick. -/
def maskedConfig : Config :=
  ⟨{ exampleParams with captureMask := .perPixel, tRst := 1, tickDiv := 2 }, by decide⟩

/-- A cycle in which the host presents nothing and the pin is low. -/
def quiet : CycleIn := { rst := false, irIn := false, host := .idle 0 }

/-- A cycle with rst = 1. -/
def inReset : CycleIn := { rst := true, irIn := false, host := .idle 0 }

/-- A cycle that presents the head of the host's stream. -/
def streaming : CycleIn := { rst := false, irIn := false, host := .stream }

/-- The first cycle after reset, with four quiet cycles scripted. -/
def start : State := { State.afterReset exampleConfig false with script := [quiet, quiet, quiet, quiet] }

/-- The same in the masked configuration. -/
def maskedStart : State := { State.afterReset maskedConfig false with script := [quiet, quiet, quiet, quiet] }

/-- A field of the next state. -/
def got {α : Type} (f : State → α) : Host.Outcome State Fault Refusal → Option α
  | .next s => some (f s)
  | .fault _ => none
  | .refused _ => none

/-! ## WellFormed: one ill-formed term for each check -/

theorem test_wf_select_keeps_no_mode : (Instr.aSelect true false 1 0).wellFormed = false := by decide
theorem test_wf_select_keeps_no_color : (Instr.aSelect false true 0 5).wellFormed = false := by decide
theorem test_wf_select : (Instr.aSelect false true 1 0).wellFormed = true := by decide

/-- 00_scope.md R10 and the ranges of R9: no machine is built for any of these. -/
theorem test_wf_durations :
    ([{ exampleParams with fClk := 0 }, { exampleParams with t0h := 0 }, { exampleParams with t0l := 0 },
      { exampleParams with t1h := 0 }, { exampleParams with t1l := 0 }, { exampleParams with tRst := 0 },
      { exampleParams with tickDiv := 0 }, { exampleParams with t0h := 6 }] : List Params).all
      (fun p => p.build.isNone) = true := by decide

theorem test_wf_counts :
    ([{ exampleParams with nPix := 0 }, { exampleParams with nPix := 65536 }, { exampleParams with kBits := 0 },
      { exampleParams with kBits := 255 }, { exampleParams with exLo := 0 }, { exampleParams with exHi := 0 },
      { exampleParams with cdStep := 0 }] : List Params).all (fun p => p.build.isNone) = true := by decide

theorem test_wf_tables :
    ([{ exampleParams with nCmd := 256 }, { exampleParams with codeTable := [0x10EF] },
      { exampleParams with action := [0x100000000000] },
      { exampleParams with nCmd := 1, codeTable := [0x10EF], action := [0x700000000000] },
      { exampleParams with nCmd := 1, codeTable := [0x10EF], action := [0x680100000000] }] : List Params).all
      (fun p => p.build.isNone) = true := by decide

/-! ## Decoding and encoding: every constructor, from words written out with the fields of 30_encoding.md R81 to R83 and
R95, R96 (OP, S, H, C; KIND, KM, KC, MODE, COLOR) -/

theorem test_decode_nop : decodeCommand 0x0000000000000000 = .ok .nop := by decide
theorem test_decode_send_byte : decodeCommand 0x01FF0000000000AB = .ok (.sendByte 0xAB 255) := by decide
theorem test_decode_send_pixel : decodeCommand 0x0280000012345678 = .ok (.sendPixel 0x12345678 128) := by decide
theorem test_decode_send_frame : decodeCommand 0x0301000089ABCDEF = .ok (.sendFrame 0x89ABCDEF 1) := by decide
theorem test_decode_send_reset : decodeCommand 0x0400000000000000 = .ok .sendReset := by decide
theorem test_decode_frame_tick : decodeCommand 0x0500000000000000 = .ok .frameTick := by decide
theorem test_decode_dec_edge : decodeCommand 0x1001FFFF00000000 = .ok (.decEdge true 65535) := by decide
theorem test_decode_dec_edge_low : decodeCommand 0x1000015F00000000 = .ok (.decEdge false 351) := by decide
theorem test_decode_cmd_receive : decodeCommand 0x11001AE500000000 = .ok (.cmdReceive 0x1AE5) := by decide
theorem test_decode_cmd_repeat : decodeCommand 0x120030CF00000000 = .ok (.cmdRepeat 0x30CF) := by decide
theorem test_decode_a_nop : decodeDescriptor 0x000000000000 = .ok .aNop := by decide
theorem test_decode_a_power : decodeDescriptor 0x100000000000 = .ok .aPower := by decide
theorem test_decode_a_bright_up : decodeDescriptor 0x200000000000 = .ok .aBrightUp := by decide
theorem test_decode_a_bright_down : decodeDescriptor 0x300000000000 = .ok .aBrightDown := by decide
theorem test_decode_a_speed_up : decodeDescriptor 0x400000000000 = .ok .aSpeedUp := by decide
theorem test_decode_a_speed_down : decodeDescriptor 0x500000000000 = .ok .aSpeedDown := by decide
theorem test_decode_a_select : decodeDescriptor 0x60A511223344 = .ok (.aSelect false false 0xA5 0x11223344) := by
  decide
theorem test_decode_a_select_keep_mode :
    decodeDescriptor 0x6800FF000000 = .ok (.aSelect true false 0 0xFF000000) := by decide
theorem test_decode_a_select_keep_color : decodeDescriptor 0x640100000000 = .ok (.aSelect false true 1 0) := by decide

/-- The illegal words of 95_test_vectors.md section 2.8. -/
theorem test_illegal_words :
    decodeCommand 0x0000000000000001 = .error (.reservedBits 0x00) ∧
    decodeCommand 0x0600000000000000 = .error (.unassignedOp 0x06) ∧
    decodeCommand 0xFF00000000000000 = .error (.unassignedOp 0xFF) ∧
    decodeCommand 0x0100000000000100 = .error (.reservedBits 0x01) ∧
    decodeCommand 0x1002000000000000 = .error (.reservedBits 0x10) ∧
    decodeCommand 0x1101123400000000 = .error (.reservedBits 0x11) ∧
    decodeCommand 0x0400000000000001 = .error (.reservedBits 0x04) := by decide

/-- Undefined descriptors (30_encoding.md R96). -/
theorem test_undefined_descriptors :
    decodeDescriptor 0x700000000000 = .error (.undefinedKind 0x7) ∧
    decodeDescriptor 0x100000000001 = .error (.descriptorReserved 0x1) ∧
    decodeDescriptor 0x610100000000 = .error (.descriptorReserved 0x6) ∧
    decodeDescriptor 0x680100000000 = .error .keptFieldNonzero ∧
    decodeDescriptor 0x640000000001 = .error .keptFieldNonzero := by decide

theorem test_encode_commands :
    encode .nop = .command 0x0000000000000000 ∧
    encode (.sendByte 0xAB 255) = .command 0x01FF0000000000AB ∧
    encode (.sendPixel 0x12345678 128) = .command 0x0280000012345678 ∧
    encode (.sendFrame 0x89ABCDEF 1) = .command 0x0301000089ABCDEF ∧
    encode .sendReset = .command 0x0400000000000000 ∧
    encode .frameTick = .command 0x0500000000000000 ∧
    encode (.decEdge true 65535) = .command 0x1001FFFF00000000 ∧
    encode (.cmdReceive 0x1AE5) = .command 0x11001AE500000000 ∧
    encode (.cmdRepeat 0x30CF) = .command 0x120030CF00000000 := by decide

theorem test_encode_descriptors :
    [encode .aNop, encode .aPower, encode .aBrightUp, encode .aBrightDown, encode .aSpeedUp, encode .aSpeedDown] =
      [.descriptor 0x000000000000, .descriptor 0x100000000000, .descriptor 0x200000000000,
        .descriptor 0x300000000000, .descriptor 0x400000000000, .descriptor 0x500000000000] ∧
    encode (.aSelect false false 0xA5 0x11223344) = .descriptor 0x60A511223344 ∧
    encode (.aSelect true false 0 0xFF000000) = .descriptor 0x6800FF000000 := by decide

theorem test_table_word_command : decodeTableWord 64 0x120030CF00000000 = some (.cmdRepeat 0x30CF) := by decide
theorem test_table_word_descriptor : decodeTableWord 48 0x640100000000 = some (.aSelect false true 1 0) := by decide
theorem test_table_word_illegal :
    decodeTableWord 64 0x0600000000000000 = none ∧ decodeTableWord 48 0x700000000000 = none ∧
    decodeTableWord 32 0 = none := by decide

/-! ## Assembler text (30_encoding.md R99, 95_test_vectors.md sections 0 and 3) -/

theorem test_read_command : readCommand "cmd.receive 0x1AE5".toList = some (.cmdReceive 0x1AE5) := by decide
theorem test_read_descriptor :
    readDescriptor "select mode=keep color=0xFF000000".toList = some (.aSelect true false 0 0xFF000000) := by decide

/-! ## One step of each operation on the first cycle after reset -/

/-- ENC-T1 and E1: 0xA5 at 255 is sent as 0xA4, 67 cycles, high first. -/
theorem test_send_byte :
    got (fun t => (waveLen t.enc.wave, t.enc.wave.length, ledDout t)) (step (start.withFetchWord 64 0x01FF0000000000A5)) =
      some (67, 16, true) := by decide

/-- 0xFF at 128 is sent as 0x7F: a 0-bit, then 1-bits (section 2.2). -/
theorem test_send_byte_half :
    got (fun t => (spans t.enc.wave).take 4) (exec (.sendByte 0xFF 128) start) =
      some [(true, 2), (false, 6), (true, 5), (false, 4)] := by decide

/-- Section 2.2: wire order green 33, red 11, blue 55, white 77, 272 cycles. -/
theorem test_send_pixel :
    got (fun t => (waveLen t.enc.wave, spans t.enc.wave ==
        byteSpans exampleParams 0x33 ++ byteSpans exampleParams 0x11 ++ byteSpans exampleParams 0x55 ++
          byteSpans exampleParams 0x77)) (exec (.sendPixel 0x12345678 255) start) = some (272, true) := by decide

/-- Section 2.2: two pixels of zeros and the reset code last 532 cycles. -/
theorem test_send_frame :
    got (fun t => (waveLen t.enc.wave, t.enc.wave.length)) (exec (.sendFrame 0 0) start) = some (532, 129) := by
  decide +kernel

/-- The reset code is 20 low cycles; the line is low and the encoder busy (section 2.3). -/
theorem test_send_reset :
    got (fun t => (waveLen t.enc.wave, ledDout t, encoderBusy t)) (step (start.withFetchWord 64 0x0400000000000000)) =
      some (20, false, true) := by decide

/-- Vector R4 (section 2.7): the first pixel is 0x7F000080 at 128, sent as 00 3F 00 40, and RS.CD goes to 123. -/
theorem test_frame_tick_blend :
    got (fun t => (t.rs.cd, (spans t.enc.wave).take 64 ==
        byteSpans exampleParams 0 ++ byteSpans exampleParams 0x3F ++ byteSpans exampleParams 0 ++
          byteSpans exampleParams 0x40))
      (exec .frameTick (start.withRs { start.rs with bright := 128, pcolor := 0xFF, color := 0xFF000000, cd := 128 })) =
      some (123, true) := by decide

/-- Vectors R2 and R5 (section 2.7): dark pixels while RUN = 0, and the countdown stops at 0. -/
theorem test_frame_tick_dark :
    got (fun t => (t.rs.cd, waveLen t.enc.wave))
      (exec .frameTick (start.withRs { start.rs with run := false, cd := 3 })) = some (0, 532) := by decide +kernel

/-- Vector D4 (section 2.4): header then shift in one invocation. -/
theorem test_dec_edge_header :
    got (fun t => t.ds) (exec (.decEdge false 351) (start.withDs { start.ds with pos := 1, code := 0x1234 })) =
      some { pos := 2, code := 0x0001, last := 0, done := false, armed := true, rep := 0 } := by decide

/-- Vectors D17 and E7 (sections 1 and 2.4): completion dispatches Receive(0x1AE5), and red is installed. -/
theorem test_dec_edge_completion :
    got (fun t => (t.ds.pos, t.ds.last, t.rs.color, t.rs.cd, t.evt.index))
      (exec (.decEdge false 169) (start.withDs { start.ds with pos := 65, armed := true, code := 0x0D72 })) =
      some (66, 0x1AE5, 0xFF000000, 255, 3) := by decide

/-- Vector I1 (section 2.6). -/
theorem test_cmd_receive_select :
    got (fun t => (t.rs.color, t.rs.pcolor, t.rs.cd, t.evt))
      (exec (.cmdReceive 0x1AE5) (start.withRs { start.rs with color := 0x000000FF })) =
      some (0xFF000000, 0x000000FF, 255, { valid := true, kind := false, code := 0x1AE5, index := 3, exec := true }) := by
  decide

/-- Vector I7 (section 2.6): a receive steps by 0. -/
theorem test_cmd_receive_step_zero :
    got (fun t => (t.rs.bright, t.ds.rep))
      (exec (.cmdReceive 0x30CF) ((start.withRep 9).withRs { start.rs with bright := 100 })) = some (100, 0) := by decide

/-- Vector I9 (section 2.6). -/
theorem test_cmd_repeat_steps :
    got (fun t => (t.rs.bright, t.ds.rep))
      (exec (.cmdRepeat 0x30CF) ((start.withRep 254).withRs { start.rs with bright := 0 })) = some (255, 255) := by
  decide

/-- Vector I4 (section 2.6): index 1 is excluded. -/
theorem test_cmd_repeat_excluded :
    got (fun t => (t.rs.run, t.ds.rep, t.evt.exec))
      (exec (.cmdRepeat 0x10EF) (start.withRs { start.rs with run := false })) = some (false, 1, false) := by decide

/-- NOP leaves the command port's registers and the wire alone (section 2.8). -/
theorem test_nop :
    got (fun t => (t.rs, t.ds, t.enc, t.err, t.evt)) (step (start.withFetchWord 64 0)) =
      some (start.rs, start.ds, start.enc, false, start.evt) := by decide

/-- An illegal word sets ERR (section 2.8). -/
theorem test_illegal_sets_err :
    got (fun t => (t.err, t.rs, t.enc)) (step (start.withFetchWord 64 0x0600000000000000)) =
      some (true, start.rs, start.enc) := by decide

theorem test_a_nop : got (fun t => (t.rs, t.evt.exec)) (step (start.withFetchWord 48 0x000000000000)) =
    some (start.rs, true) := by decide
theorem test_a_power : got (fun t => t.rs.run) (step (start.withFetchWord 48 0x100000000000)) = some false := by decide
theorem test_a_bright_up :
    got (fun t => t.rs.bright) (exec .aBrightUp ((start.withRep 3).withRs { start.rs with bright := 253 })) =
      some 255 := by decide
theorem test_a_bright_down :
    got (fun t => t.rs.bright) (exec .aBrightDown ((start.withRep 1).withRs { start.rs with bright := 100 })) =
      some 99 := by decide
theorem test_a_speed_up :
    got (fun t => t.rs.speed) (exec .aSpeedUp ((start.withRep 2).withRs { start.rs with speed := 251 })) =
      some 253 := by decide
theorem test_a_speed_down :
    got (fun t => t.rs.speed) (exec .aSpeedDown ((start.withRep 3).withRs { start.rs with speed := 2 })) =
      some 0 := by decide
/-- Vector I2 (section 2.6): KC keeps the color, and both previous slots are written. -/
theorem test_a_select :
    got (fun t => (t.rs.mode, t.rs.color, t.rs.pmode, t.rs.pcolor, t.rs.cd))
      (exec (.aSelect false true 1 0) (start.withRs { start.rs with color := 0x11223344 })) =
      some (1, 0x11223344, 0, 0x11223344, 255) := by decide

/-! ## Operations -/

/-- Section 2.1. -/
theorem test_scale :
    ([(0, 255), (255, 0), (1, 255), (255, 255), (255, 128), (128, 128), (200, 100), (127, 255), (16, 16)] :
      List (Byte × Byte)).map (fun e => (scale e.1 e.2).toNat) = [0, 0, 0, 254, 127, 64, 78, 126, 1] := by decide

/-- Section 2.7. -/
theorem test_blend :
    blend 0x000000FF 0xFF000000 250 = 0x050000FA ∧ blend 0x000000FF 0xFF000000 128 = 0x7F000080 ∧
    blend 0xFFFFFFFF 0x00000000 254 = 0xFEFEFEFE ∧ blend 0x10203040 0x50607080 100 = 0x36465666 := by decide

/-- Vectors D6, D8 and D12 (section 2.4): strict thresholds, and the gap before the position-1 rules. -/
theorem test_repeat_marker :
    (decStep exampleParams false 350 { start.ds with pos := 1, done := true, last := 0x1AE5 }).2 = some (.repeated 0x1AE5) ∧
    (decStep exampleParams false 180 { start.ds with pos := 1, done := true, last := 0x1AE5 }).2 = none ∧
    (decStep exampleParams true 65535 { start.ds with pos := 1, done := true, last := 0x1AE5 }).2 = none := by decide

/-- 60_exceptions.md R262 code 10 with 30_encoding.md R80: a word presented in reset is not ready, and nothing else is noted. -/
theorem test_not_ready_in_reset :
    cycleAnomalies { start with script := [{ inReset with host := .word 0x0400000000000000 }] } = [.notReady] ∧
    cycleAnomalies { start with script := [inReset] } = [] := by decide

/-! ## Witnesses: the encoding -/

theorem witness_wellFormed :
    (Instr.aSelect false true 255 0).wellFormed = true ∧ (Instr.decEdge true 65535).wellFormed = true := by decide

theorem witness_decode_ok :
    decode (.command 0x01FF0000000000AB) = .ok (.sendByte 0xAB 255) ∧
    decode (.descriptor 0x6800FF000000) = .ok (.aSelect true false 0 0xFF000000) := by decide

theorem witness_program_fits :
    ∀ l ∈ ([.sendStrip [0xFF000000, 0] 128, .press 0x1AE5, .hold 0x30CF 2, .edges [(true, 900)], .command .nop] :
      List Pseudo), l.fits exampleParams = true := by decide

/-! ## Witnesses: the cycle and the command port -/

/-- `start` while the wire carries a byte: 67 cycles of pixel window. -/
def sending : State := start.withWave (openWindow (byteWave exampleParams 0xA5 255))

/-- `start` with an edge detected in this cycle. -/
def edgeNow : State := start.withFe { start.fe with s2 := true }

/-- `start` with one cycle of the wire left. -/
def lastCycle : State := start.withWave [{ level := false, cycles := 1, tag := .pxIn, first := false }]

/-- `start` with two cycles of the wire left. -/
def twoCycles : State := start.withWave [{ level := false, cycles := 2, tag := .pxIn, first := false }]

theorem witness_step_runs :
    rstIn (presentWord 0x0400000000000000 lastCycle) = false ∧ cmdValid (presentWord 0x0400000000000000 lastCycle) = true ∧
    decodeCommand (cmdWord (presentWord 0x0400000000000000 lastCycle)) = .ok .sendReset ∧
    ready (.ok .sendReset) (presentWord 0x0400000000000000 lastCycle) = true := by decide

theorem witness_no_pin_dispatch : pinDispatch start = false ∧ start.fe.presc = start.params.tickDiv - 1 := by decide
theorem witness_no_pin_dispatch_between_ticks :
    pinDispatch maskedStart = false ∧ maskedStart.fe.presc ≠ maskedStart.params.tickDiv - 1 := by decide
theorem witness_pin_dispatch : pinDispatch edgeNow = true := by decide

theorem witness_readiness :
    rstIn start = false ∧ cmdReady (presentWord 0x0500000000000000 lastCycle) = true ∧
    cmdReady (presentWord 0x0500000000000000 twoCycles) = false ∧
    cmdReady (presentWord 0x11001AE500000000 edgeNow) = false ∧
    cmdReady (presentWord 0x0600000000000000 edgeNow) = true := by decide

theorem witness_not_ready :
    ready (decodeCommand 0x0400000000000000) twoCycles = false ∧
    ready (decodeCommand 0x1001038400000000) edgeNow = false := by decide

/-- The host's stream waits with one word, which is accepted. -/
def streamTaken : State := { start with script := [streaming], stream := [0x0400000000000000] }

/-- The host's stream waits with a word that is not ready. -/
def streamHeld : State := { twoCycles with script := [streaming], stream := [0x0400000000000000] }

theorem witness_stream_taken :
    rstIn streamTaken = false ∧ (currentInput streamTaken).host = .stream ∧ (∃ t, step streamTaken = .next t) ∧
    cmdAccepted streamTaken = true := ⟨by decide, by decide, ⟨_, rfl⟩, by decide⟩

theorem witness_stream_held :
    rstIn streamHeld = false ∧ (currentInput streamHeld).host = .stream ∧ (∃ t, step streamHeld = .next t) ∧
    cmdAccepted streamHeld = false := ⟨by decide, by decide, ⟨_, rfl⟩, by decide⟩

theorem witness_unassigned_op :
    opField 0x0600000000000000 ∉ [0x00, 0x01, 0x02, 0x03, 0x04, 0x05, 0x10, 0x11, 0x12] ∧
    opField 0xFF00000000000000 ∉ [0x00, 0x01, 0x02, 0x03, 0x04, 0x05, 0x10, 0x11, 0x12] := by decide

theorem witness_reserved_bit :
    opField 0x0000000000000001 = CommandOp.nop.code ∧ (0 : Nat) < 56 ∧ CommandOp.nop.maskBits.getLsbD 0 = true ∧
    (0x0000000000000001 : CommandWord).getLsbD 0 = true := by decide

theorem witness_reserved_bit_top :
    opField 0x1080000000000000 = CommandOp.decEdge.code ∧ (55 : Nat) < 56 ∧
    CommandOp.decEdge.maskBits.getLsbD 55 = true ∧ (0x1080000000000000 : CommandWord).getLsbD 55 = true := by decide

theorem witness_step_next : (∃ t, step start = .next t) ∧ (∃ t, exec .frameTick start = .next t) ∧
    rstIn start = false ∧ cmdWord start = 0 := ⟨⟨_, rfl⟩, ⟨_, rfl⟩, by decide, by decide⟩

/-! ## Witnesses: whole-machine rules -/

/-- A sound state with every part at a bound: an armed decoder about to complete, a driven head, an executed event. -/
def busy : State :=
  { maskedStart with
    ds := { pos := 65, code := 0x0D72, last := 0x1AE5, done := false, armed := true, rep := 255 }
    fe := { s1 := true, s2 := true, prev := false, ticks := 65535, presc := 1, pend := true }
    enc := { wave := [{ level := true, cycles := 1, tag := .pxStart, first := false },
                      { level := false, cycles := 6, tag := .pxIn, first := true }] }
    evt := { valid := true, kind := true, code := 0x609F, index := 7, exec := true } }

theorem witness_sound : Sound busy ∧ rstIn busy = false ∧ ∃ t, step busy = .next t :=
  ⟨⟨by unfold WaveSound; decide, by unfold DecoderSound; decide, by unfold FrontEndSound; decide,
    by unfold EventSound; decide⟩, by decide, ⟨_, rfl⟩⟩

theorem witness_err_and_reset :
    (∃ t, step start = .next t) ∧ (∃ t, step (presentWord 0x0600000000000000 start) = .next t) ∧
    illegalAccepted (presentWord 0x0600000000000000 start) = true ∧
    (∃ t, step { start with script := [inReset] } = .next t) := ⟨⟨_, rfl⟩, ⟨_, rfl⟩, by decide, ⟨_, rfl⟩⟩

theorem witness_frame_tick_cycle :
    rstIn (presentWord 0x0500000000000000 start) = false ∧ (∃ t, step (presentWord 0x0500000000000000 start) = .next t) ∧
    acceptedInstr (presentWord 0x0500000000000000 start) = some .frameTick ∧
    cycleEvent (presentWord 0x0500000000000000 start) = none := ⟨by decide, ⟨_, rfl⟩, by decide, by decide⟩

theorem witness_receive_cycle :
    rstIn (presentWord 0x11001AE500000000 start) = false ∧ (∃ t, step (presentWord 0x11001AE500000000 start) = .next t) ∧
    cycleEvent (presentWord 0x11001AE500000000 start) = some (.receive 0x1AE5) := ⟨by decide, ⟨_, rfl⟩, by decide⟩

/-- An unrecognised code, an excluded repeat at each end of the range, and a repeat past the range and at its table's end. -/
theorem witness_interpreter_cycles :
    cycleEvent (presentWord 0x1100BEEF00000000 start) = some (.receive 0xBEEF) ∧
    cycleEvent (presentWord 0x120010EF00000000 start) = some (.repeated 0x10EF) ∧
    cycleEvent (presentWord 0x12001AE500000000 start) = some (.repeated 0x1AE5) ∧
    cycleEvent (presentWord 0x120030CF00000000 start) = some (.repeated 0x30CF) ∧
    cycleEvent (presentWord 0x1200609F00000000 start) = some (.repeated 0x609F) ∧
    (∃ t, step (presentWord 0x1100BEEF00000000 start) = .next t) ∧
    (∃ t, step (presentWord 0x120010EF00000000 start) = .next t) ∧
    (∃ t, step (presentWord 0x12001AE500000000 start) = .next t) ∧
    (∃ t, step (presentWord 0x120030CF00000000 start) = .next t) ∧
    (∃ t, step (presentWord 0x1200609F00000000 start) = .next t) :=
  ⟨by decide, by decide, by decide, by decide, by decide, ⟨_, rfl⟩, ⟨_, rfl⟩, ⟨_, rfl⟩, ⟨_, rfl⟩, ⟨_, rfl⟩⟩

theorem witness_decoder_untouched :
    rstIn start = false ∧ (∃ t, step start = .next t) ∧ pinDispatch start = false ∧
    (∀ lv k, acceptedInstr start ≠ some (.decEdge lv k)) ∧ cycleEvent start = none := by
  have h : acceptedInstr start = none := by decide
  exact ⟨by decide, ⟨_, rfl⟩, by decide, by simp [h], by decide⟩

/-! ## Witnesses: runs -/

/-- The successive cycles from `s`. -/
def cyclesFrom (s : State) : Nat → State
  | 0 => s
  | k + 1 =>
    match step (cyclesFrom s k) with
    | .next t => t
    | .fault _ => cyclesFrom s k
    | .refused _ => cyclesFrom s k

/-- `busy` with three cycles of reset scripted. -/
def busyInReset : State := { busy with script := [inReset, inReset, inReset] }

theorem witness_reset_cycle : rstIn busyInReset = true := by decide

theorem witness_three_reset_cycles :
    Runs (cyclesFrom busyInReset) 3 ∧
    ∀ k < 3, rstIn (cyclesFrom busyInReset k) = true ∧ (currentInput (cyclesFrom busyInReset k)).irIn = false := by
  constructor
  · intro k hk
    match k, hk with
    | 0, _ => rfl
    | 1, _ => rfl
    | 2, _ => rfl
  · decide

/-- A cycle that accepts SEND_RESET with T_RST = 1. -/
def shortWave : State := presentWord 0x0400000000000000 maskedStart

theorem witness_wire :
    Runs (cyclesFrom shortWave) 2 ∧ rstIn (cyclesFrom shortWave 0) = false ∧
    acceptedInstr (cyclesFrom shortWave 0) = some .sendReset ∧ startsWave .sendReset = true ∧
    (∃ u, exec .sendReset (advance (cyclesFrom shortWave 0)) = .next u ∧ waveLen u.enc.wave = 1) ∧
    (∀ j, 1 ≤ j → j ≤ 1 → rstIn (cyclesFrom shortWave j) = false ∧ waveStarted (cyclesFrom shortWave j) = false) := by
  refine ⟨?_, by decide, by decide, by decide, ⟨_, rfl, by decide⟩, ?_⟩
  · intro k hk
    match k, hk with
    | 0, _ => rfl
    | 1, _ => rfl
  · intro j h1 h2
    obtain rfl : j = 1 := by omega
    decide

theorem witness_transmission :
    Sound (presentWord 0x0400000000000000 lastCycle) ∧ rstIn (presentWord 0x0400000000000000 lastCycle) = false ∧
    (∃ t, step (presentWord 0x0400000000000000 lastCycle) = .next t) ∧
    waveStarted (presentWord 0x0400000000000000 lastCycle) = true ∧ waveStarted lastCycle = false :=
  ⟨⟨by unfold WaveSound; decide, by unfold DecoderSound; decide, by unfold FrontEndSound; decide,
    by unfold EventSound; decide⟩, by decide, ⟨_, rfl⟩, by decide, by decide⟩

/-- R306: no run is over while a word is still to come, in the script or in the stream. -/
theorem test_end_of_run_waits_for_words :
    endOfRun start = true ∧ endOfRun (start.withFetchWord 64 0) = false ∧
    endOfRun { start with script := [quiet, { quiet with host := .word 0 }] } = false ∧
    endOfRun { start with stream := [0] } = false := by decide

/-- R306: with the word accepted in cycle 0 and one cycle of wire, the end state is that of cycle 2, not cycle 1 (busy). -/
theorem test_end_state : EndStateAt (cyclesFrom shortWave) 3 2 := by
  refine ⟨by decide, by decide, fun j h1 h2 => ?_, fun m hm hs => ?_⟩
  · rcases (by omega : j = 2 ∨ j = 3) with rfl | rfl <;> decide
  · rcases (by omega : m = 0 ∨ m = 1) with rfl | rfl
    · exact ⟨0, by decide, by decide, by decide⟩
    · exact absurd hs (by decide)

/-- A cycle that accepts SEND_RESET with T_RST = 20. -/
def longWave : State := presentWord 0x0400000000000000 start

/-- In the middle of a waveform: cycles 1 and 2 show offsets 0 and 1 of 20. -/
theorem witness_wire_inside :
    Runs (cyclesFrom longWave) 3 ∧ rstIn (cyclesFrom longWave 0) = false ∧
    acceptedInstr (cyclesFrom longWave 0) = some .sendReset ∧
    (∃ u, exec .sendReset (advance (cyclesFrom longWave 0)) = .next u ∧ waveLen u.enc.wave = 20) ∧
    (∀ j, 1 ≤ j → j ≤ 2 → rstIn (cyclesFrom longWave j) = false ∧ waveStarted (cyclesFrom longWave j) = false) := by
  refine ⟨?_, by decide, by decide, ⟨_, rfl, by decide⟩, ?_⟩
  · intro k hk
    match k, hk with
    | 0, _ => rfl
    | 1, _ => rfl
    | 2, _ => rfl
  · intro j h1 h2
    rcases (by omega : j = 1 ∨ j = 2) with rfl | rfl <;> decide

theorem witness_head_segment :
    rstIn twoCycles = false ∧ (∃ t, step twoCycles = .next t) ∧ waveStarted twoCycles = false ∧
    (∃ g rest, twoCycles.enc.wave = g :: rest ∧ 1 < g.cycles) ∧
    rstIn lastCycle = false ∧ (∃ t, step lastCycle = .next t) ∧ waveStarted lastCycle = false ∧
    (∃ g rest, lastCycle.enc.wave = g :: rest ∧ g.cycles ≤ 1) ∧
    waveStarted start = false ∧ start.enc.wave = [] ∧
    waveStarted (presentWord 0x0400000000000000 start) = true ∧
    (∃ t, step (presentWord 0x0400000000000000 start) = .next t) :=
  ⟨by decide, ⟨_, rfl⟩, by decide, ⟨_, _, rfl, by decide⟩, by decide, ⟨_, rfl⟩, by decide, ⟨_, _, rfl, by decide⟩,
    by decide, by decide, by decide, ⟨_, rfl⟩⟩

theorem witness_transmission_held :
    Sound (presentWord 0x0400000000000000 twoCycles) ∧
    decodeCommand (cmdWord (presentWord 0x0400000000000000 twoCycles)) = .ok .sendReset ∧
    1 < waveLen (presentWord 0x0400000000000000 twoCycles).enc.wave :=
  ⟨⟨by unfold WaveSound; decide, by unfold DecoderSound; decide, by unfold FrontEndSound; decide,
    by unfold EventSound; decide⟩, by decide, by decide⟩

theorem witness_durations :
    (2 + 6 = 8 ∧ 4 + 4 = 8) ∧ ({ exampleParams with t1h := 4 } : Params).WellFormed ∧
    ([0xFF000000, 0] : List Color).length = exampleParams.nPix := by decide

theorem witness_scale : 1 ≤ (1 : Byte).toNat ∧ 1 ≤ (255 : Byte).toNat := by decide

/-! ## Witnesses: the front end -/

theorem witness_stable_pin :
    Runs (cyclesFrom edgeNow) 3 ∧ ∀ k < 3, (currentInput (cyclesFrom edgeNow k)).irIn = false := by
  constructor
  · intro k hk
    match k, hk with
    | 0, _ => rfl
    | 1, _ => rfl
    | 2, _ => rfl
  · decide

/-- `maskedStart` in a service cycle with an edge pending. -/
def pendingNow : State := maskedStart.withFe { maskedStart.fe with pend := true, ticks := 264 }

theorem witness_pin_edge :
    rstIn edgeNow = false ∧ captureMasked edgeNow = false ∧ edgeDetected edgeNow = true ∧ ∃ t, step edgeNow = .next t :=
  ⟨by decide, by decide, by decide, ⟨_, rfl⟩⟩

theorem witness_pin_edge_pending :
    rstIn pendingNow = false ∧ captureMasked pendingNow = false ∧ pendingNow.fe.pend = true ∧
    ∃ t, step pendingNow = .next t := ⟨by decide, by decide, by decide, ⟨_, rfl⟩⟩

theorem witness_masked : rstIn busy = false ∧ (∃ t, step busy = .next t) ∧ captureMasked busy = true :=
  ⟨by decide, ⟨_, rfl⟩, by decide⟩

/-- `maskedStart` with an edge detected and 2 cycles a tick. -/
def slowEdge : State := maskedStart.withFe { maskedStart.fe with s1 := false, s2 := false, prev := true }

theorem witness_ticks :
    Runs (cyclesFrom slowEdge) 3 ∧ rstIn (cyclesFrom slowEdge 0) = false ∧ pinDispatch (cyclesFrom slowEdge 0) = true ∧
    ∀ k, 1 ≤ k → k ≤ 2 → rstIn (cyclesFrom slowEdge k) = false ∧ pinDispatch (cyclesFrom slowEdge k) = false := by
  refine ⟨?_, by decide, by decide, ?_⟩
  · intro k hk
    match k, hk with
    | 0, _ => rfl
    | 1, _ => rfl
    | 2, _ => rfl
  · intro k h1 h2
    rcases (by omega : k = 1 ∨ k = 2) with rfl | rfl <;> decide

theorem witness_no_mask :
    Sound edgeNow ∧ rstIn edgeNow = false ∧ edgeNow.params.captureMask = .none :=
  ⟨⟨by unfold WaveSound; decide, by unfold DecoderSound; decide, by unfold FrontEndSound; decide,
    by unfold EventSound; decide⟩, by decide, by decide⟩

/-! ## Witnesses: the decoder -/

theorem witness_long_gap : exampleParams.WellFormed ∧ exampleParams.tGap.toNat < (701 : Ticks).toNat := by decide

/-- The decoder at position 1 with a completed code. -/
def atHeader : DecoderState := { start.ds with pos := 1, done := true, last := 0x1AE5 }

/-- The decoder at position 65, armed. -/
def atLastBit : DecoderState := { start.ds with pos := 65, armed := true, code := 0x0D72 }

theorem witness_thresholds :
    (atLastBit.armed = true ∧ atLastBit.pos ≠ 1) ∧ (atHeader.pos = 1 ∧ atHeader.armed = false ∧ atHeader.done = true ∧
      exampleParams.tHdrLo.toNat < exampleParams.tHdrHi.toNat) := by decide

theorem witness_repeat_marker :
    atHeader.pos = 1 ∧ atHeader.armed = false ∧
    exampleParams.tHdrLo.toNat < (181 : Ticks).toNat ∧ (181 : Ticks).toNat ≤ exampleParams.tHdrHi.toNat ∧
    exampleParams.tHdrLo.toNat < (350 : Ticks).toNat ∧ (350 : Ticks).toNat ≤ exampleParams.tHdrHi.toNat ∧
    (true = true → (350 : Ticks).toNat ≤ exampleParams.tGap.toNat) := by decide

theorem witness_completion :
    exampleParams.WellFormed ∧ (decStep exampleParams false 169 atLastBit).2 = some (.receive 0x1AE5) := by decide

/-- Parameters of a frame of `n` data bits. -/
def shortFrame (n : Nat) : Params := { exampleParams with kBits := 2 * n }

/-- The hypotheses on a frame: a gap and a header just past their thresholds, and the data bits `bits`. -/
def FrameOf (n : Nat) (bits : List (Bool × Ticks × Ticks)) : Prop :=
  (shortFrame n).WellFormed ∧ (shortFrame n).kBits = 2 * bits.length ∧
  (shortFrame n).tGap.toNat < (701 : Ticks).toNat ∧ (shortFrame n).tHdrHi.toNat < (351 : Ticks).toNat ∧
  ∀ b ∈ bits, b.2.1.toNat ≤ (shortFrame n).tGap.toNat ∧ (b.1 = true ↔ (shortFrame n).tShort.toNat < b.2.2.toNat)

theorem witness_frame_of_1_bit : FrameOf 1 (List.replicate 1 (true, 700, 111)) := by
  refine ⟨by decide, by decide, by decide, by decide, fun b hb => ?_⟩
  obtain rfl := List.eq_of_mem_replicate hb
  decide

theorem witness_frame_of_15_bits : FrameOf 15 (List.replicate 15 (true, 700, 111)) := by
  refine ⟨by decide, by decide, by decide, by decide, fun b hb => ?_⟩
  obtain rfl := List.eq_of_mem_replicate hb
  decide

theorem witness_frame_of_16_bits : FrameOf 16 (List.replicate 16 (false, 700, 110)) := by
  refine ⟨by decide, by decide, by decide, by decide, fun b hb => ?_⟩
  obtain rfl := List.eq_of_mem_replicate hb
  decide

theorem witness_frame_of_17_bits : FrameOf 17 (List.replicate 17 (false, 700, 110)) := by
  refine ⟨by decide, by decide, by decide, by decide, fun b hb => ?_⟩
  obtain rfl := List.eq_of_mem_replicate hb
  decide

/-! ## Witnesses: the interpreter, the render step and port control -/

theorem witness_lookup :
    0xBEEF ∉ exampleConfig.val.codeTable ∧ 0x10EF ∈ exampleConfig.val.codeTable ∧
    0x609F ∈ exampleConfig.val.codeTable := by decide

theorem witness_index :
    lookupIndex start.params 0xBEEF = 0 ∧ lookupIndex start.params 0x10EF = 1 ∧ lookupIndex start.params 0x1AE5 = 3 ∧
    lookupIndex start.params 0x30CF = 4 ∧ lookupIndex start.params 0x609F = 7 := by decide

theorem witness_excluded :
    lookupIndex start.params 0x10EF ≠ 0 ∧
    start.params.exLo.toNat ≤ (lookupIndex start.params 0x10EF).toNat ∧
    (lookupIndex start.params 0x10EF).toNat ≤ start.params.exHi.toNat ∧
    lookupIndex start.params 0x1AE5 ≠ 0 ∧
    start.params.exLo.toNat ≤ (lookupIndex start.params 0x1AE5).toNat ∧
    (lookupIndex start.params 0x1AE5).toNat ≤ start.params.exHi.toNat := by decide

theorem witness_not_excluded :
    lookupIndex start.params 0x30CF ≠ 0 ∧
    ¬ (start.params.exLo.toNat ≤ (lookupIndex start.params 0x30CF).toNat ∧
       (lookupIndex start.params 0x30CF).toNat ≤ start.params.exHi.toNat) := by decide

theorem witness_bounds :
    start.rs.bright = 255 ∧ start.rs.speed = 0 ∧ (∃ t, exec .aBrightUp start = .next t) ∧
    (∃ t, exec .aBrightDown start = .next t) ∧ (∃ t, exec .aSpeedUp start = .next t) ∧
    (∃ t, exec .aSpeedDown start = .next t) ∧
    (start.withRs { start.rs with bright := 0, speed := 255 }).rs.bright = 0 ∧
    (start.withRs { start.rs with bright := 0, speed := 255 }).rs.speed = 255 :=
  ⟨by decide, by decide, ⟨_, rfl⟩, ⟨_, rfl⟩, ⟨_, rfl⟩, ⟨_, rfl⟩, by decide, by decide⟩

theorem witness_nop :
    opField 0x0000000000000001 = 0 ∧ (0x0000000000000001 : CommandWord) ≠ 0 ∧
    opField 0x00FFFFFFFFFFFFFF = 0 ∧ (0x00FFFFFFFFFFFFFF : CommandWord) ≠ 0 ∧ pinDispatch start = false := by decide

theorem witness_pixel_color :
    ({ start.rs with run := false }).run = false ∧ (start.rs.run = true ∧ start.rs.cd = 0) ∧
    ({ start.rs with cd := 1 }).cd ≠ 0 ∧ exampleParams.pattern = [] := by decide

theorem witness_blend :
    (5 : Byte).toNat ≤ (250 : Byte).toNat ∧ (0 : Byte).toNat ≤ (255 : Byte).toNat := by decide

theorem witness_countdown : start.params.cdStep = 5 := by decide

/-- The four adjustments of the example table, outside the excluded range. -/
theorem witness_adjustments :
    [(0x30CF : CodeWord), 0x40BF, 0x50AF, 0x609F].map (fun w =>
      (lookupIndex start.params w, suppressed start.params (lookupIndex start.params w),
        (start.params.action[(lookupIndex start.params w).toNat - 1]?).map (fun d => (decodeDescriptor d).toOption))) =
      [(4, false, some (some .aBrightUp)), (5, false, some (some .aBrightDown)),
        (6, false, some (some .aSpeedUp)), (7, false, some (some .aSpeedDown))] := by decide

/-- A press of red, a repeat of BRIGHT_UP, a FRAME_TICK, and a quiet cycle. -/
def selectRun : State :=
  { start with script :=
    [{ quiet with host := .word 0x11001AE500000000 }, { quiet with host := .word 0x120030CF00000000 },
      { quiet with host := .word 0x0500000000000000 }, quiet, quiet] }

theorem witness_countdown_run :
    Runs (cyclesFrom selectRun) 4 ∧ (cyclesFrom selectRun 0).params.cdStep = 5 ∧ rstIn (cyclesFrom selectRun 0) = false ∧
    cycleAction (cyclesFrom selectRun 0) = some (.aSelect true false 0 0xFF000000) ∧
    (∀ j, 1 ≤ j → j ≤ 3 → rstIn (cyclesFrom selectRun j) = false ∧
      (cycleAction (cyclesFrom selectRun j)).any isSelect = false) ∧
    frameTicks (cyclesFrom selectRun) 3 = 1 := by
  refine ⟨?_, by decide, by decide, by decide, ?_, by decide⟩
  · intro k hk
    match k, hk with
    | 0, _ => rfl
    | 1, _ => rfl
    | 2, _ => rfl
    | 3, _ => rfl
  · intro j h1 h2
    rcases (by omega : j = 1 ∨ j = 2 ∨ j = 3) with rfl | rfl | rfl <;> decide

/-- The cycle after one that does not tick is one that accepts a FRAME_TICK. -/
theorem witness_countdown_next_frame :
    rstIn (cyclesFrom selectRun 2) = false ∧ acceptedInstr (cyclesFrom selectRun 2) = some .frameTick ∧
    (∃ u, step (cyclesFrom selectRun 2) = .next u) ∧ frameTicks (cyclesFrom selectRun) 1 = 0 :=
  ⟨by decide, by decide, ⟨_, rfl⟩, by decide⟩

end Sys2Proof.Tests
end

section
/-! The configuration is static (00_scope.md R12): what an operation, a reset and a whole cycle leave of it. -/

namespace Sys2Proof.Machine

open Sys2Proof

/-- An operation leaves the configuration alone, whatever state it runs in: it is outside what an operation may write
(10_state.md R48). -/
theorem exec_cfg {i : Instr} {s t : State} (h : exec i s = .next t) : t.cfg = s.cfg := by
  obtain ⟨u, hu, hcfg, -⟩ := exec_frame i s
  obtain rfl : u = t := Host.Outcome.next.inj (hu.symm.trans h)
  exact hcfg

/-- Reset restores what the configuration says, not the configuration (70_reset_and_hazards.md R290). -/
@[simp] theorem resetCycle_cfg (s : State) : (resetCycle s).cfg = s.cfg := rfl

/-- A cycle leaves the configuration alone: in reset, with an operation on top of its own work, with an illegal word, and
with no accepted word. -/
theorem step_cfg {s t : State} (h : step s = .next t) : t.cfg = s.cfg := by
  rcases step_cases h with ⟨-, rfl⟩ | ⟨-, i, -, -, -, -, hexec⟩ | ⟨-, -, -, rfl⟩ | ⟨-, -, -, -, rfl⟩
  · exact resetCycle_cfg s
  · exact (exec_cfg hexec).trans (advance_cfg s)
  · exact advance_cfg s
  · exact advance_cfg s

/-- Settles O16: every cycle, by what it can be, and every operation keep the configuration. -/
theorem configurationIsStatic : Obligations.ConfigurationIsStatic :=
  ⟨fun _ _ => step_cfg, fun _ _ _ => exec_cfg⟩

end Sys2Proof.Machine
end

section
/-! ERR is sticky and the synchroniser follows the pin (10_state.md R43, R38): what a whole cycle, in reset or not, leaves in
ERR and in the three synchroniser stages, and where a pin level stands in the cycles after it. -/

namespace Sys2Proof.Machine

open Sys2Proof

/-- The frame of an operation, for the state it is known to end in (10_state.md R48). -/
theorem exec_operationFrame {i : Instr} {s t : State} (h : exec i s = .next t) : OperationFrame s t := by
  obtain ⟨u, hu, hframe⟩ := exec_frame i s
  obtain rfl : u = t := Host.Outcome.next.inj (hu.symm.trans h)
  exact hframe

/-! ## ERR -/

/-- No operation writes ERR; an illegal word, which is none, sets it in the cycle itself (60_exceptions.md R261). -/
theorem exec_err {i : Instr} {s t : State} (h : exec i s = .next t) : t.err = s.err := by
  obtain ⟨-, -, herr, -⟩ := exec_operationFrame h
  exact herr

@[simp] theorem resetCycle_err (s : State) : (resetCycle s).err = false := rfl

/-- An accepted word is an operation or illegal, never both (30_encoding.md R88). -/
theorem illegalAccepted_of_acceptedInstr {s : State} {i : Instr} (h : acceptedInstr s = some i) :
    illegalAccepted s = false := by
  unfold acceptedInstr at h
  split at h
  · simp [illegalAccepted, h]
  · cases h

/-- The next ERR, by what the cycle can be: 0 in reset, kept by an operation, 1 after an illegal word, and kept when no
word is accepted. -/
theorem step_err {s t : State} (h : step s = .next t) :
    t.err = (!rstIn s && (s.err || illegalAccepted s)) := by
  rcases step_cases h with ⟨hr, rfl⟩ | ⟨hr, i, hi, -, -, -, hexec⟩ | ⟨hr, hill, -, rfl⟩ | ⟨hr, -, -, hill, rfl⟩
  · simp [hr]
  · have herr : t.err = s.err := (exec_err hexec).trans (advance_err s)
    simp [hr, herr, illegalAccepted_of_acceptedInstr hi]
  · simp [hr, hill]
  · simp [hr, hill]

/-- Settles O19: every cycle, by what it can be, and the state after reset. -/
theorem errIsStickyUntilReset : Obligations.ErrIsStickyUntilReset :=
  ⟨fun _ _ => step_err, rfl⟩

/-! ## The synchroniser -/

@[simp] theorem resetCycle_fe (s : State) :
    (resetCycle s).fe = FrontEnd.atReset (currentInput s).irIn s.fe.s1 s.fe.s2 := rfl

/-- The three stages load in every cycle: from the front end's clock edge outside reset, and by R290 in reset. -/
theorem step_synchronises {s t : State} (h : step s = .next t) :
    t.fe.s1 = (currentInput s).irIn ∧ t.fe.s2 = s.fe.s1 ∧ t.fe.prev = s.fe.s2 := by
  cases hr : rstIn s with
  | false =>
    obtain ⟨-, hfe, -⟩ := step_parts hr h
    simp [hfe]
  | true =>
    obtain rfl : resetCycle s = t := by simpa [step, hr] using h
    simp [FrontEnd.atReset]

/-- An edge is detected exactly where FE.S2 and FE.PREV differ (10_state.md R38). -/
theorem edgeDetected_iff (s : State) : edgeDetected s = true ↔ s.fe.s2 ≠ s.fe.prev := bne_iff_ne

section
variable {σ : Nat → State} {n k : Nat}

/-- FE.S1 holds the pin level of the cycle before. -/
theorem Runs.s1_eq (h : Runs σ n) (hk : k < n) : (σ (k + 1)).fe.s1 = (currentInput (σ k)).irIn := by
  obtain ⟨hs1, -, -⟩ := step_synchronises (h k hk)
  exact hs1

/-- FE.S2 holds the pin level of 2 cycles before. -/
theorem Runs.s2_eq (h : Runs σ n) (hk : k + 1 < n) : (σ (k + 2)).fe.s2 = (currentInput (σ k)).irIn := by
  obtain ⟨-, hs2, -⟩ := step_synchronises (h (k + 1) hk)
  exact hs2.trans (h.s1_eq (by omega))

/-- FE.PREV holds the pin level of 3 cycles before. -/
theorem Runs.prev_eq (h : Runs σ n) (hk : k + 2 < n) : (σ (k + 3)).fe.prev = (currentInput (σ k)).irIn := by
  obtain ⟨-, -, hprev⟩ := step_synchronises (h (k + 2) hk)
  exact hprev.trans (h.s2_eq (by omega))

end

/-- After 3 cycles of a stable pin every stage holds its level: each stage shows one of the last 3 pin levels. -/
theorem Runs.stages_of_stable_pin {σ : Nat → State} {pin : Bool} (h : Runs σ 3)
    (hpin : ∀ k < 3, (currentInput (σ k)).irIn = pin) :
    (σ 3).fe.s1 = pin ∧ (σ 3).fe.s2 = pin ∧ (σ 3).fe.prev = pin :=
  ⟨(h.s1_eq (k := 2) (by omega)).trans (hpin 2 (by omega)),
    (h.s2_eq (k := 1) (by omega)).trans (hpin 1 (by omega)),
    (h.prev_eq (k := 0) (by omega)).trans (hpin 0 (by omega))⟩

/-- Settles O34: the load in every cycle, the edge test, and a pin level's way through the three stages. -/
theorem synchroniserFollowsThePin : Obligations.SynchroniserFollowsThePin :=
  ⟨fun _ _ => step_synchronises, edgeDetected_iff, fun _ _ => Runs.stages_of_stable_pin⟩

end Sys2Proof.Machine
end

section
/-! The command port's decoding and readiness (30_encoding.md R85, R86, R89): why a word is illegal, what a presented word
does to its cycle, and the readiness table. -/

namespace Sys2Proof

/-! ## Illegal words -/

/-- Each row of the map is found by its OP (30_encoding.md R82). -/
@[simp] theorem CommandOp.ofCode_code (o : CommandOp) : CommandOp.ofCode o.code = some o := by
  cases o <;> rfl

/-- An OP names no row exactly when it is no row's OP (30_encoding.md R82, R86). -/
theorem CommandOp.ofCode_eq_none_iff {op : BitVec 8} :
    CommandOp.ofCode op = none ↔ op ∉ CommandOp.all.map CommandOp.code := by
  simp [CommandOp.ofCode]

/-- Below OP a match word is 0: it asks for nothing but its row's OP and zeros (30_encoding.md R83). -/
theorem CommandOp.matchBits_eq_shiftLeft (o : CommandOp) : o.matchBits = o.code.setWidth 64 <<< 56 := by
  cases o <;> rfl

/-- A word with a 1 in a reserved bit of a row does not fit the row, whose match word has a 0 there (30_encoding.md R83). -/
theorem CommandOp.not_fits_of_reservedBit {o : CommandOp} {cw : CommandWord} {k : Nat} (hk : k < 56)
    (hmask : o.maskBits.getLsbD k = true) (hcw : cw.getLsbD k = true) : cw &&& o.maskBits ≠ o.matchBits := by
  intro hfits
  have hone : (cw &&& o.maskBits).getLsbD k = true := by simp [hmask, hcw]
  have hzero : o.matchBits.getLsbD k = false := by simp [o.matchBits_eq_shiftLeft, hk]
  rw [hfits, hzero] at hone
  cases hone

/-- The first way a word is illegal: its OP is unassigned (30_encoding.md R86). -/
theorem decodeCommand_of_unassigned {cw : CommandWord} (h : opField cw ∉ CommandOp.all.map CommandOp.code) :
    decodeCommand cw = .error (.unassignedOp (opField cw)) := by
  simp [decodeCommand, CommandOp.ofCode_eq_none_iff.mpr h]

/-- The second way: it has a row's OP and does not fit the row (30_encoding.md R85). -/
theorem decodeCommand_of_not_fits {cw : CommandWord} {o : CommandOp} (hop : opField cw = o.code)
    (hm : cw &&& o.maskBits ≠ o.matchBits) : decodeCommand cw = .error (.reservedBits o.code) := by
  simp [decodeCommand, hop, hm]

namespace Machine

/-! ## A presented word -/

section
variable (w : CommandWord) (s : State)

@[simp] theorem rstIn_presentWord : rstIn (presentWord w s) = false := rfl
@[simp] theorem cmdValid_presentWord : cmdValid (presentWord w s) = true := rfl
@[simp] theorem cmdWord_presentWord : cmdWord (presentWord w s) = w := rfl

/-- Readiness reads the encoder and the capture, not the port (30_encoding.md R89). -/
@[simp] theorem ready_presentWord (r : Except DecodeError Instr) : ready r (presentWord w s) = ready r s := by
  cases r with
  | error _ => rfl
  | ok i => cases i <;> rfl

@[simp] theorem cmdReady_presentWord : cmdReady (presentWord w s) = ready (decodeCommand w) s := by
  simp [cmdReady]

@[simp] theorem cmdAccepted_presentWord : cmdAccepted (presentWord w s) = ready (decodeCommand w) s := by
  simp [cmdAccepted]

/-- The cycle's own work does not depend on the word presented in it. -/
theorem advance_presentWord (w' : CommandWord) : advance (presentWord w s) = advance (presentWord w' s) := rfl

/-- The cycle of a presented word: the word's effect where it is ready, the cycle's own work alone where it is not. -/
theorem step_presentWord : step (presentWord w s) =
    if ready (decodeCommand w) s then runWord w (advance (presentWord w s)) else .next (advance (presentWord w s)) := by
  simp [step]

/-- The cycle of a presented NOP is the cycle's own work (44_control.md R250). -/
theorem step_presentWord_nop : step (presentWord 0 s) = .next (advance (presentWord 0 s)) := by
  have hnop : runWord 0 (advance (presentWord 0 s)) = .next (advance (presentWord 0 s)) := by
    rw [runWord, decodeCommand_of_row .nop (by decide) (by decide)]
    rfl
  rw [step_presentWord, hnop, ite_self]

end

/-- An illegal word is ready in every state, and its cycle is a NOP's with ERR set (60_exceptions.md R261). -/
theorem illegalWord_ready_and_sets_err {w : CommandWord} {e : DecodeError} (h : decodeCommand w = .error e) (s : State) :
    cmdReady (presentWord w s) = true ∧
      ∃ t, step (presentWord 0 s) = .next t ∧ step (presentWord w s) = .next { t with err := true } := by
  have hready : ready (decodeCommand w) s = true := by rw [h]; rfl
  refine ⟨by simp [hready], advance (presentWord 0 s), step_presentWord_nop s, ?_⟩
  rw [step_presentWord, if_pos hready, advance_presentWord w s 0]
  simp only [runWord, h]
  rfl

/-- Settles O13: such a word decodes to an error by its OP, whatever its other bits are. -/
theorem unassignedOpIsIllegal : Obligations.UnassignedOpIsIllegal := by
  intro cw hop
  have herr := decodeCommand_of_unassigned hop
  exact ⟨herr, illegalWord_ready_and_sets_err herr⟩

/-- Settles O14: the reserved bit keeps the word from fitting the one row its OP names. -/
theorem reservedBitIsIllegal : Obligations.ReservedBitIsIllegal := by
  rintro cw o hop ⟨k, hk, hmask, hcw⟩
  have herr := decodeCommand_of_not_fits hop (CommandOp.not_fits_of_reservedBit hk hmask hcw)
  exact ⟨herr, illegalWord_ready_and_sets_err herr⟩

/-! ## Readiness -/

/-- The encoder is free when it is idle or in its last cycle (40_encoder.md R130). -/
theorem encoderFree_iff (s : State) : encoderFree s = true ↔ waveLen s.enc.wave = 0 ∨ waveLen s.enc.wave = 1 := by
  rw [encoderFree, decide_eq_true_iff]
  omega

/-- The rows of the readiness table (30_encoding.md R89): an operation that starts a waveform waits for the encoder, one
that a pin edge would collide with waits for the pin dispatch, FRAME_TICK waits for both, NOP for neither. -/
theorem ready_ok_iff {i : Instr} (hi : i.isCommand = true) (s : State) :
    ready (.ok i) s = true ↔
      (startsWave i = true → encoderFree s = true) ∧
      (i = .frameTick ∨ (∃ lv t, i = .decEdge lv t) ∨ (∃ w, i = .cmdReceive w) ∨ (∃ w, i = .cmdRepeat w) →
        pinDispatch s = false) := by
  cases i with
  | nop => simp [ready, startsWave]
  | sendByte | sendPixel | sendFrame | sendReset => simp [ready, startsWave]
  | frameTick => simp [ready, startsWave]
  | decEdge | cmdReceive | cmdRepeat => simp [ready, startsWave]
  | aNop | aPower | aBrightUp | aBrightDown | aSpeedUp | aSpeedDown | aSelect => cases hi

/-- Settles O9: outside reset `cmd_ready` is the readiness of what the word decodes to, and no word decodes to an action
kind. -/
theorem readinessTable : Obligations.ReadinessTable := by
  intro s hr
  have hready : cmdReady s = ready (decodeCommand (cmdWord s)) s := by simp [cmdReady, hr]
  rw [hready]
  cases h : decodeCommand (cmdWord s) with
  | error e => simp [ready]
  | ok i => rw [ready_ok_iff (decodeCommand_isCommand h), encoderFree_iff]

end Machine
end Sys2Proof
end

section
/-! The waveforms of the encoder (40_encoder.md R120 to R128): the scaling of a channel byte, and what a byte, a pixel and a
frame are made of as levels and durations, as tags and as cycles. -/

namespace Sys2Proof.Machine

open Sys2Proof

/-! ## Scaling -/

/-- A brightness is less than 256, so scaling by it makes no byte larger (40_encoder.md R123). -/
theorem scale_le (b s : Byte) : (scale b s).toNat ≤ b.toNat := by
  have hs : s.toNat ≤ 256 := s.isLt.le
  rw [scale_toNat]
  exact Nat.div_le_of_le_mul ((Nat.mul_le_mul_left _ hs).trans_eq (Nat.mul_comm ..))

/-- Full brightness is 255 of 256, so it keeps no byte but 0 (40_encoder.md R123). -/
theorem scale_lt {b : Byte} (hb : 1 ≤ b.toNat) (s : Byte) : (scale b s).toNat < b.toNat := by
  have hprod : b.toNat * s.toNat < b.toNat * 256 := Nat.mul_lt_mul_of_pos_left s.isLt hb
  rw [scale_toNat]
  omega

/-- Full brightness takes exactly 1 off (40_encoder.md R123). -/
theorem scale_full {b : Byte} (hb : 1 ≤ b.toNat) : (scale b 255).toNat = b.toNat - 1 := by
  have hb' := byte_toNat_le b
  have h255 : (255 : Byte).toNat = 255 := rfl
  rw [scale_toNat, h255]
  omega

/-- Brightness 128 is one half (40_encoder.md R123). -/
theorem scale_half (b : Byte) : (scale b 128).toNat = b.toNat / 2 := by
  have h128 : (128 : Byte).toNat = 128 := rfl
  rw [scale_toNat, h128]
  omega

@[simp] theorem scale_zero_left (s : Byte) : scale 0 s = 0 := byte_ext (by simp)

@[simp] theorem scale_zero_right (b : Byte) : scale b 0 = 0 := byte_ext (by simp)

/-- Settles O26: the exact product, which two bytes bound by 255 * 255, and the properties of R123. -/
theorem scaleIsProductDividedBy256 : Obligations.ScaleIsProductDividedBy256 :=
  ⟨fun b s => ⟨scale_toNat b s, Nat.mul_le_mul (byte_toNat_le b) (byte_toNat_le s)⟩,
    scale_le, fun _ s hb => scale_lt hb s, fun _ => scale_full, scale_zero_left, scale_zero_right,
    by decide, by decide, scale_half⟩

/-! ## Levels and durations -/

@[simp] theorem spans_append (u w : List Segment) : spans (u ++ w) = spans u ++ spans w := List.map_append

/-- Opening a window changes a tag, no level and no duration (40_encoder.md R121). -/
@[simp] theorem spans_openWindow (w : List Segment) : spans (openWindow w) = spans w := by
  cases w <;> rfl

@[simp] theorem templateSpans_length (p : Params) (v : Bool) : (templateSpans p v).length = 2 := by
  cases v <;> rfl

@[simp] theorem spans_pulse (p : Params) (v : Bool) : spans (pulse p v) = templateSpans p v := by
  cases v <;> rfl

/-- The two segments of pulse `k` are the template of bit `n - 1 - k`, as the most significant bit is sent first
(20_memory.md R62). -/
theorem spans_bitsWave_getElem? (p : Params) (v : Byte) {n k j : Nat} (hk : k < n) (hj : j < 2) :
    (spans (bitsWave p v n))[2 * k + j]? = (templateSpans p (v.getLsbD (n - 1 - k)))[j]? := by
  induction n generalizing k with
  | zero => omega
  | succ n ih =>
    rw [bitsWave, spans_append, spans_pulse]
    cases k with
    | zero => simp [List.getElem?_append_left, hj]
    | succ k =>
      have hidx : 2 * (k + 1) + j - 2 = 2 * k + j := by omega
      have hbit : n + 1 - 1 - (k + 1) = n - 1 - k := by omega
      rw [List.getElem?_append_right (by simp; omega), templateSpans_length, hidx, hbit]
      exact ih (by omega)

/-- A byte's waveform is the eight templates of the exact product divided by 256 (40_encoder.md R122, R124). -/
theorem spans_byteWave (p : Params) (b s : Byte) :
    spans (byteWave p b s) = byteSpans p (b.toNat * s.toNat / 256) := by
  simp only [← scale_toNat, byteWave_eq, spans_append, spans_pulse, byteSpans, BitVec.testBit_toNat]
  rfl

/-- The byte of a color that starts at bit `lo` is the channel with that lowest bit (30_encoding.md R84). -/
theorem extractLsb'_toNat_eq_channelAt (c : Color) (lo : Nat) : (c.extractLsb' lo 8).toNat = channelAt c lo := by
  rw [BitVec.extractLsb'_toNat, Nat.shiftRight_eq_div_pow]
  rfl

theorem spans_pixelWave (p : Params) (c : Color) (s : Byte) : spans (pixelWave p c s) = pixelSpans p c s := by
  simp only [pixelWave, spans_openWindow, spans_append, spans_byteWave, green, red, blue, white,
    extractLsb'_toNat_eq_channelAt]
  simp [pixelSpans]

/-! ## Tags -/

theorem bitsWave_tags (p : Params) (v : Byte) (n : Nat) :
    (bitsWave p v n).map (·.tag) = List.replicate (2 * n) .pxIn := by
  induction n with
  | zero => rfl
  | succ n ih => simp [bitsWave, pulse, ih, Nat.mul_succ, List.replicate_succ]

theorem byteWave_tags (p : Params) (b s : Byte) : (byteWave p b s).map (·.tag) = List.replicate 16 .pxIn :=
  bitsWave_tags p (scale b s) 8

/-- Of the segments of one window the first is PX_START and the others are PX_IN (40_encoder.md R121). -/
theorem openWindow_tags {w : List Segment} {n : Nat} (h : w.map (·.tag) = List.replicate (n + 1) .pxIn) :
    (openWindow w).map (·.tag) = .pxStart :: List.replicate n .pxIn := by
  cases w with
  | nil => cases h
  | cons g w =>
    obtain ⟨-, hw⟩ := List.cons.inj h
    simp [openWindow, hw]

theorem pixelWave_tags (p : Params) (c : Color) (s : Byte) :
    (pixelWave p c s).map (·.tag) = .pxStart :: List.replicate 63 .pxIn :=
  openWindow_tags (by simp [byteWave_tags])

/-- Settles O27: the window of the eight pulses, by their spans and their tags. -/
theorem sendByteStartsEightPulses : Obligations.SendByteStartsEightPulses := by
  intro b s st
  have htags := openWindow_tags (byteWave_tags st.params b s)
  have hspans : spans (openWindow (byteWave st.params b s)) = spans (bitsWave st.params (scale b s) 8) :=
    spans_openWindow _
  refine ⟨openWindow (byteWave st.params b s), rfl, ?_, ?_, fun k hk => ?_, htags⟩
  · simpa using congrArg List.length htags
  · rw [spans_openWindow, spans_byteWave]
  · rw [hspans]
    exact ⟨spans_bitsWave_getElem? _ _ hk (j := 0) (by omega), spans_bitsWave_getElem? _ _ hk (j := 1) (by omega)⟩

/-- Settles O28: the window of the four channels in wire order, by their spans and their tags. -/
theorem sendPixelSendsGreenRedBlueWhite : Obligations.SendPixelSendsGreenRedBlueWhite :=
  fun c s st => ⟨rfl, spans_pixelWave st.params c s, pixelWave_tags st.params c s⟩

/-! ## Durations (40_encoder.md R128) -/

theorem waveLen_pulse (p : Params) (v : Bool) :
    waveLen (pulse p v) = if v then p.t1h + p.t1l else p.t0h + p.t0l := by
  cases v <;> rfl

theorem onesOf_eq_countP (v : Byte) : onesOf v = (List.range 8).countP v.getLsbD :=
  List.countP_eq_length_filter.symm

theorem onesOf_le (v : Byte) : onesOf v ≤ 8 := by
  rw [onesOf_eq_countP]
  exact List.countP_le_length

/-- The low `n` bits last one 1-pulse for each of their ones and one 0-pulse for each of their zeros. -/
theorem waveLen_bitsWave (p : Params) (v : Byte) (n : Nat) :
    waveLen (bitsWave p v n) = (List.range n).countP v.getLsbD * (p.t1h + p.t1l) +
      (n - (List.range n).countP v.getLsbD) * (p.t0h + p.t0l) := by
  induction n with
  | zero => simp [bitsWave]
  | succ n ih =>
    have hle : (List.range n).countP v.getLsbD ≤ n := List.countP_le_length.trans_eq List.length_range
    rw [bitsWave, waveLen_append, waveLen_pulse, ih, List.range_succ, List.countP_append, List.countP_singleton]
    cases v.getLsbD n with
    | true =>
      rw [if_pos rfl, if_pos rfl, Nat.add_sub_add_right]
      ring
    | false =>
      rw [if_neg Bool.false_ne_true, if_neg Bool.false_ne_true, Nat.add_zero, Nat.sub_add_comm hle]
      ring

theorem waveLen_byteWave (p : Params) (b s : Byte) :
    waveLen (byteWave p b s) =
      onesOf (scale b s) * (p.t1h + p.t1l) + (8 - onesOf (scale b s)) * (p.t0h + p.t0l) := by
  rw [onesOf_eq_countP]
  exact waveLen_bitsWave p (scale b s) 8

theorem waveLen_pixelWave (p : Params) (c : Color) (s : Byte) :
    waveLen (pixelWave p c s) = waveLen (byteWave p (green c) s) + waveLen (byteWave p (red c) s) +
      waveLen (byteWave p (blue c) s) + waveLen (byteWave p (white c) s) := by
  simp only [pixelWave, waveLen_openWindow, waveLen_append]

theorem waveLen_frameWave (p : Params) (px : List Color) (s : Byte) :
    waveLen (frameWave p px s) = (px.map (fun c => waveLen (pixelWave p c s))).sum + p.tRst := by
  rw [frameWave, waveLen_append, waveLen_resetWave]
  induction px with
  | nil => rfl
  | cons c px ih => simp [pixelsWave, Nat.add_assoc, ih]

section
variable {p : Params} {tb : Nat}

/-- Where both pulses last equally long, a byte's duration does not depend on its bits. -/
theorem waveLen_byteWave_of_equal_pulses (h0 : p.t0h + p.t0l = tb) (h1 : p.t1h + p.t1l = tb) (b s : Byte) :
    waveLen (byteWave p b s) = 8 * tb := by
  rw [waveLen_byteWave, h0, h1, ← Nat.add_mul, Nat.add_sub_cancel' (onesOf_le _)]

theorem waveLen_pixelWave_of_equal_pulses (h0 : p.t0h + p.t0l = tb) (h1 : p.t1h + p.t1l = tb) (c : Color) (s : Byte) :
    waveLen (pixelWave p c s) = 32 * tb := by
  simp only [waveLen_pixelWave, waveLen_byteWave_of_equal_pulses h0 h1]
  omega

theorem waveLen_frameWave_of_equal_pulses (h0 : p.t0h + p.t0l = tb) (h1 : p.t1h + p.t1l = tb) (px : List Color)
    (s : Byte) : waveLen (frameWave p px s) = 32 * px.length * tb + p.tRst := by
  simp only [waveLen_frameWave, waveLen_pixelWave_of_equal_pulses h0 h1, List.map_const', List.sum_replicate_nat]
  ring

end

/-- Settles O30: the duration of each waveform, and of a byte and a frame where both pulses last equally long. -/
theorem waveformDurations : Obligations.WaveformDurations :=
  fun p s => ⟨waveLen_pulse p false, waveLen_pulse p true, fun b => waveLen_byteWave p b s,
    fun c => waveLen_pixelWave p c s, fun px => waveLen_frameWave p px s,
    fun _ h0 h1 => ⟨fun b => waveLen_byteWave_of_equal_pulses h0 h1 b s,
      fun px hpx => hpx ▸ waveLen_frameWave_of_equal_pulses h0 h1 px s⟩⟩

end Sys2Proof.Machine
end

section
/-! A started waveform on the wire (40_encoder.md R129 to R132): the cycles after its start drive it one clock edge each, and
the output ports show it. -/

namespace Sys2Proof.Machine

open Sys2Proof

/-! ## Clock edges in a row -/

section
variable {w : List Segment} (h : WaveSound w) (k : Nat)
include h

theorem waveSound_iterate_tickWave : WaveSound (tickWave^[k] w) := by
  induction k with
  | zero => exact h
  | succ k ih =>
    rw [Function.iterate_succ_apply']
    exact waveSound_tickWave ih

theorem waveLen_iterate_tickWave : waveLen (tickWave^[k] w) = waveLen w - k := by
  induction k with
  | zero => rfl
  | succ k ih =>
    rw [Function.iterate_succ_apply', waveLen_tickWave (waveSound_iterate_tickWave h k), ih, Nat.sub_sub]

theorem levelAt_iterate_tickWave (m : Nat) : levelAt (tickWave^[k] w) m = levelAt w (m + k) := by
  induction k generalizing m with
  | zero => rfl
  | succ k ih =>
    rw [Function.iterate_succ_apply', levelAt_tickWave (waveSound_iterate_tickWave h k), ih]
    congr 1
    omega

/-- After `k` clock edges the wire shows offset `k` (40_encoder.md R129). -/
theorem ledLevel_iterate_tickWave : ledLevel (tickWave^[k] w) = levelAt w k := by
  rw [ledLevel_eq_levelAt (waveSound_iterate_tickWave h k), levelAt_iterate_tickWave h, Nat.zero_add]

/-- After `k` clock edges something is left to drive exactly when the waveform is longer than `k` (40_encoder.md R132). -/
theorem not_isEmpty_iterate_tickWave : (!(tickWave^[k] w).isEmpty) = decide (k < waveLen w) := by
  rw [waveSound_isEmpty (waveSound_iterate_tickWave h k), waveLen_iterate_tickWave h, ← decide_not]
  exact decide_eq_decide.mpr (by omega)

end

/-! ## The cycles after a start -/

/-- The cycle that accepts an operation ends in the operation's effect on the cycle's own work (30_encoding.md R88). -/
theorem exec_advance_of_accepted {s t : State} {i : Instr} (hr : rstIn s = false) (hi : acceptedInstr s = some i)
    (h : step s = .next t) : exec i (advance s) = .next t := by
  rcases step_cases h with ⟨hrst, -⟩ | ⟨-, j, hj, -, -, -, hexec⟩ | ⟨-, -, hnone, -⟩ | ⟨-, -, hnone, -, -⟩
  · simp [hr] at hrst
  · obtain rfl : i = j := Option.some.inj (hi.symm.trans hj)
    exact hexec
  · simp [hi] at hnone
  · simp [hi] at hnone

/-- In cycles that start no waveform the encoder takes one clock edge each (10_state.md R42). -/
theorem Runs.wave_eq_iterate {σ : Nat → State} {n k : Nat} (h : Runs σ n) (hk : k < n)
    (hquiet : ∀ j, 1 ≤ j → j ≤ k → rstIn (σ j) = false ∧ waveStarted (σ j) = false) :
    (σ (k + 1)).enc.wave = tickWave^[k] (σ 1).enc.wave := by
  induction k with
  | zero => rfl
  | succ k ih =>
    obtain ⟨hr, hw⟩ := hquiet (k + 1) (by omega) le_rfl
    obtain ⟨-, -, -, -, -, htick, -⟩ := step_parts hr (h (k + 1) hk)
    rw [htick hw, ih (by omega) fun j h1 hj => hquiet j h1 (by omega), Function.iterate_succ_apply']

/-- `st_busy` shows whether anything is left to drive (40_encoder.md R132). -/
theorem outputs_stBusy_iff (s : State) : (outputs s).stBusy = true ↔ s.enc.wave ≠ [] := by
  simp [outputs, encoderBusy]

/-- Settles O31: cycle 0 ends in the started waveform, which is sound, and cycle `k + 1` shows it after `k` clock edges. -/
theorem wireCarriesTheStartedWaveform : Obligations.WireCarriesTheStartedWaveform := by
  intro σ i u k hrun hr hi hstarts hexec hquiet
  have hstart : σ 1 = u :=
    Host.Outcome.next.inj ((exec_advance_of_accepted hr hi (hrun 0 (by omega))).symm.trans hexec)
  have hsound : WaveSound u.enc.wave := (exec_startsWave hstarts hexec).sound
  have hwave : (σ (k + 1)).enc.wave = tickWave^[k] u.enc.wave := hstart ▸ hrun.wave_eq_iterate (by omega) hquiet
  refine ⟨congrArg State.enc hstart, ?_, ?_, outputs_stBusy_iff _⟩
  · rw [outputs, ledDout, hwave, ledLevel_iterate_tickWave hsound]
  · rw [outputs, encoderBusy, hwave, not_isEmpty_iterate_tickWave hsound]

end Sys2Proof.Machine
end

section
/-! The decoder step by cases (41_decoder.md R166 to R172): when each of its five steps writes, the invocation in the
situations an edge finds the decoder in, and the step against the spec's pseudocode. -/

namespace Sys2Proof.Machine

open Sys2Proof

/-! ## The tests (41_decoder.md R177) -/

theorem exceeds_iff (t threshold : Ticks) : exceeds t threshold = true ↔ threshold.toNat < t.toNat := decide_eq_true_iff

@[simp] theorem exceeds_self (t : Ticks) : exceeds t t = false := decide_eq_false (Nat.lt_irrefl _)

@[simp] theorem isLongGap_falling (p : Params) (t : Ticks) : isLongGap p false t = false := rfl

@[simp] theorem isLongGap_rising (p : Params) (t : Ticks) : isLongGap p true t = exceeds t p.tGap := rfl

section
variable {p : Params} {lv : Bool} {t : Ticks} {d : DecoderState}

theorem isHeader_of_pos_ne_one (h : d.pos ≠ 1) : isHeader p t d = false := by
  rw [isHeader, decide_eq_false h, Bool.false_and]

theorem isRepeatMarker_of_pos_ne_one (h : d.pos ≠ 1) : isRepeatMarker p t d = false := by
  rw [isRepeatMarker, decide_eq_false h, Bool.false_and, Bool.false_and]

/-- A header and a repeat marker exclude each other (41_decoder.md R168, R169). -/
theorem isRepeatMarker_of_header (h : isHeader p t d = true) : isRepeatMarker p t d = false := by
  obtain ⟨-, hhi⟩ := Bool.and_eq_true_iff.mp h
  simp [isRepeatMarker, hhi]

theorem isComplete_of_disarmed (h : d.armed = false) : isComplete p d = false := by simp [isComplete, h]

theorem isComplete_of_pos_le (h : d.pos.toNat ≤ p.kBits) : isComplete p d = false := by
  simp [isComplete, Nat.not_lt.mpr h]

theorem isComplete_of_pos_gt (harm : d.armed = true) (h : p.kBits < d.pos.toNat) : isComplete p d = true := by
  simp [isComplete, harm, h]

/-! ## The five steps where they apply and where they do not -/

theorem longGapRule_of_gap (h : isLongGap p lv t = true) :
    longGapRule p lv t d = { d with pos := 0, armed := false } := if_pos h

theorem longGapRule_of_no_gap (h : isLongGap p lv t = false) : longGapRule p lv t d = d :=
  if_neg (by simp [h])

theorem headerRule_of_header (h : isHeader p t d = true) :
    headerRule p t d = { d with armed := true, code := 0, done := false } := if_pos h

theorem headerRule_of_no_header (h : isHeader p t d = false) : headerRule p t d = d :=
  if_neg (by simp [h])

theorem repeatRule_of_no_marker (h : isRepeatMarker p t d = false) : repeatRule p t d = none := by simp [repeatRule, h]

@[simp] theorem shiftRule_rising : shiftRule p true t d = d := by simp [shiftRule]

theorem shiftRule_of_disarmed (h : d.armed = false) : shiftRule p lv t d = d := by simp [shiftRule, h]

theorem shiftRule_falling (h : d.armed = true) :
    shiftRule p false t d = { d with code := shiftIn d.code (exceeds t p.tShort) } := by simp [shiftRule, h]

theorem completionRule_of_complete (h : isComplete p d = true) :
    completionRule p d = { d with last := d.code, done := true, armed := false } := if_pos h

theorem completionRule_of_incomplete (h : isComplete p d = false) : completionRule p d = d :=
  if_neg (by simp [h])

theorem completionEvent_of_complete (h : isComplete p d = true) : completionEvent p d = some (.receive d.code) := if_pos h

theorem completionEvent_of_incomplete (h : isComplete p d = false) : completionEvent p d = none :=
  if_neg (by simp [h])

/-! ## One invocation, by what the edge finds -/

/-- Only the long-gap rule and the count write DS.POS (41_decoder.md R167, R172). -/
theorem decStep_pos (p : Params) (lv : Bool) (t : Ticks) (d : DecoderState) :
    (decStep p lv t d).1.pos = inc8 (longGapRule p lv t d).pos := by simp [decStep]

/-- A rising edge after a long gap restarts the count and dispatches nothing (41_decoder.md R175). -/
theorem decStep_of_longGap (h : exceeds t p.tGap = true) :
    decStep p true t d = ({ d with pos := 1, armed := false }, none) := by
  have hpos : ({ d with pos := 0, armed := false } : DecoderState).pos ≠ 1 := show (0 : Byte) ≠ 1 by decide
  have hdis : isComplete p { d with pos := 0, armed := false } = false := isComplete_of_disarmed rfl
  simp only [decStep, longGapRule_of_gap ((isLongGap_rising p t).trans h),
    headerRule_of_no_header (isHeader_of_pos_ne_one hpos), shiftRule_rising, completionRule_of_incomplete hdis,
    completionEvent_of_incomplete hdis, repeatRule_of_no_marker (isRepeatMarker_of_pos_ne_one hpos)]
  rfl

/-- At the edge that ends the header the decoder is armed and the edge itself shifts the first bit (41_decoder.md R168,
R170). -/
theorem decStep_of_header (hk : 1 ≤ p.kBits) (hpos : d.pos = 1) (ht : exceeds t p.tHdrHi = true) :
    decStep p false t d =
      ({ d with pos := 2, armed := true, code := shiftIn 0 (exceeds t p.tShort), done := false }, none) := by
  have hhdr : isHeader p t d = true := by simp [isHeader, hpos, ht]
  have hinc : isComplete p { d with armed := true, code := shiftIn 0 (exceeds t p.tShort), done := false } = false :=
    isComplete_of_pos_le (by simpa [hpos] using hk)
  simp only [decStep, longGapRule_of_no_gap (isLongGap_falling p t), headerRule_of_header hhdr, shiftRule_falling,
    completionRule_of_incomplete hinc, completionEvent_of_incomplete hinc,
    repeatRule_of_no_marker (isRepeatMarker_of_header hhdr)]
  simp [countRule, hpos, inc8]

/-- Past the header an edge shifts, completes and counts (41_decoder.md R170 to R172). -/
theorem decStep_past_header (hgap : isLongGap p lv t = false) (hpos : d.pos ≠ 1) :
    decStep p lv t d =
      (countRule (completionRule p (shiftRule p lv t d)), completionEvent p (shiftRule p lv t d)) := by
  simp only [decStep, longGapRule_of_no_gap hgap, headerRule_of_no_header (isHeader_of_pos_ne_one hpos),
    repeatRule_of_no_marker (isRepeatMarker_of_pos_ne_one hpos), Option.or_none]

/-- A disarmed decoder that sees no header only counts, and only a repeat marker dispatches (41_decoder.md R169, R172). -/
theorem decStep_of_disarmed (hgap : isLongGap p lv t = false) (hhdr : isHeader p t d = false) (hdis : d.armed = false) :
    decStep p lv t d = (countRule d, repeatRule p t d) := by
  simp only [decStep, longGapRule_of_no_gap hgap, headerRule_of_no_header hhdr, shiftRule_of_disarmed hdis,
    completionRule_of_incomplete (isComplete_of_disarmed hdis), completionEvent_of_incomplete (isComplete_of_disarmed hdis),
    Option.none_or]

end

/-! ## Sequences of edges -/

theorem decSteps_append (p : Params) (before after : List (Bool × Ticks)) (d : DecoderState) :
    decSteps p (before ++ after) d =
      ((decSteps p after (decSteps p before d).1).1,
        (decSteps p before d).2 ++ (decSteps p after (decSteps p before d).1).2) := by
  induction before generalizing d with
  | nil => rfl
  | cons e rest ih => simp [decSteps, ih]

/-- Settles O41: the edge that ends a long gap leaves nothing of DS.POS and DS.ARMED, and a sequence runs on from what it
leaves. -/
theorem longGapResynchronises : Obligations.LongGapResynchronises := by
  intro p t d _ ht
  have hstep (d' : DecoderState) := decStep_of_longGap (d := d') ((exceeds_iff t p.tGap).mpr ht)
  refine ⟨by rw [hstep], by rw [hstep], by rw [hstep], by rw [hstep], fun before after => ?_⟩
  simp only [decSteps_append, decSteps, hstep]

/-! ## The pseudocode (41_decoder.md R166) -/

/-- The shift as the pseudocode writes it: the low 15 bits move up and the new bit enters (41_decoder.md R170). -/
theorem shiftIn_eq_append (code : CodeWord) (bit : Bool) :
    shiftIn code bit = code.extractLsb' 0 15 ++ BitVec.ofBool bit := by
  refine BitVec.eq_of_getLsbD_eq fun i hi => ?_
  rw [BitVec.getLsbD_append]
  cases i with
  | zero => simp [shiftIn]
  | succ i =>
    simpa [shiftIn, hi, Nat.lt_of_succ_lt_succ hi] using (BitVec.getLsbD_eq_getElem (Nat.lt_of_succ_lt hi)).symm

/-- The pseudocode from step (4) on, after a dispatch `ev` of step (2). -/
def sequentialFromCompletion (p : Params) (d : DecoderState) (ev : Option Event) : DecoderState × Option Event :=
  if d.armed = true ∧ p.kBits < d.pos.toNat then
    ({ d with pos := BitVec.ofNat 8 (d.pos.toNat + 1), last := d.code, done := true, armed := false },
      some (.receive d.code))
  else ({ d with pos := BitVec.ofNat 8 (d.pos.toNat + 1) }, ev)

/-- The pseudocode from step (3) on. -/
def sequentialFromShift (p : Params) (lv : Bool) (t : Ticks) (d : DecoderState) (ev : Option Event) :
    DecoderState × Option Event :=
  if d.armed = true ∧ lv = false then
    sequentialFromCompletion p
      { d with code := d.code.extractLsb' 0 15 ++ BitVec.ofBool (decide (p.tShort.toNat < t.toNat)) } ev
  else sequentialFromCompletion p d ev

/-- The pseudocode from step (2) on. -/
def sequentialFromHeader (p : Params) (lv : Bool) (t : Ticks) (d : DecoderState) : DecoderState × Option Event :=
  if d.pos = 1 then
    if p.tHdrHi.toNat < t.toNat then
      sequentialFromShift p lv t { d with armed := true, code := 0, done := false } none
    else if p.tHdrLo.toNat < t.toNat then
      if d.done = true then sequentialFromShift p lv t d (some (.repeated d.last)) else sequentialFromShift p lv t d none
    else sequentialFromShift p lv t d none
  else sequentialFromShift p lv t d none

/-- The pseudocode is its step (1) and then the rest. -/
theorem decStepSequential_eq (p : Params) (lv : Bool) (t : Ticks) (d : DecoderState) :
    decStepSequential p lv t d =
      if lv = true ∧ p.tGap.toNat < t.toNat then sequentialFromHeader p lv t { d with pos := 0, armed := false }
      else sequentialFromHeader p lv t d := rfl

section
variable (p : Params) (lv : Bool) (t : Ticks) (d : DecoderState) (ev : Option Event)

theorem sequentialFromCompletion_eq :
    sequentialFromCompletion p d ev = (countRule (completionRule p d), (completionEvent p d).or ev) := by
  have hinc : inc8 d.pos = BitVec.ofNat 8 (d.pos.toNat + 1) := byte_ext (by simp)
  unfold sequentialFromCompletion
  split
  · rename_i h
    obtain ⟨harm, hpos⟩ := h
    have hc : isComplete p d = true := isComplete_of_pos_gt harm hpos
    simp [completionRule_of_complete hc, completionEvent_of_complete hc, countRule, hinc]
  · rename_i h
    have hc : isComplete p d = false := by simpa [isComplete] using h
    simp [completionRule_of_incomplete hc, completionEvent_of_incomplete hc, countRule, hinc]

theorem sequentialFromShift_eq :
    sequentialFromShift p lv t d ev = sequentialFromCompletion p (shiftRule p lv t d) ev := by
  simp only [sequentialFromShift, shiftRule, shiftIn_eq_append, exceeds, Bool.and_eq_true, Bool.not_eq_true']
  split <;> rfl

theorem sequentialFromHeader_eq :
    sequentialFromHeader p lv t d = sequentialFromShift p lv t (headerRule p t d) (repeatRule p t d) := by
  unfold sequentialFromHeader
  by_cases hpos : d.pos = 1
  · by_cases hhi : p.tHdrHi.toNat < t.toNat
    · have hhdr : isHeader p t d = true := by simp [isHeader, hpos, exceeds, hhi]
      rw [if_pos hpos, if_pos hhi, headerRule_of_header hhdr, repeatRule_of_no_marker (isRepeatMarker_of_header hhdr)]
    · have hhdr : isHeader p t d = false := by simp [isHeader, exceeds, hhi]
      rw [if_pos hpos, if_neg hhi, headerRule_of_no_header hhdr]
      by_cases hlo : p.tHdrLo.toNat < t.toNat <;> by_cases hdone : d.done = true <;>
        simp [repeatRule, isRepeatMarker, exceeds, hpos, hhi, hlo, hdone]
  · rw [if_neg hpos, headerRule_of_no_header (isHeader_of_pos_ne_one hpos),
      repeatRule_of_no_marker (isRepeatMarker_of_pos_ne_one hpos)]

end

/-- Settles O39: each step of the pseudocode is the rule of its number, followed by the rest. -/
theorem decoderStepIsThePseudocode : Obligations.DecoderStepIsThePseudocode := by
  intro p lv t d
  have hrest (d1 : DecoderState) : sequentialFromHeader p lv t d1 =
      (countRule (completionRule p (shiftRule p lv t (headerRule p t d1))),
        (completionEvent p (shiftRule p lv t (headerRule p t d1))).or (repeatRule p t d1)) := by
    rw [sequentialFromHeader_eq, sequentialFromShift_eq, sequentialFromCompletion_eq]
  rw [decStepSequential_eq, decStep]
  by_cases hgap : lv = true ∧ p.tGap.toNat < t.toNat
  · have h : isLongGap p lv t = true := by simpa [isLongGap, exceeds] using hgap
    rw [if_pos hgap, longGapRule_of_gap h, hrest]
  · have h : isLongGap p lv t = false := by simpa [isLongGap, exceeds] using hgap
    rw [if_neg hgap, longGapRule_of_no_gap h, hrest]

/-! ## Dispatches (41_decoder.md R176, R177) -/

theorem pos_eq_one_of_repeatRule_isSome {p : Params} {t : Ticks} {d : DecoderState}
    (h : (repeatRule p t d).isSome = true) : d.pos = 1 := by
  by_contra hpos
  simp [repeatRule_of_no_marker (isRepeatMarker_of_pos_ne_one hpos)] at h

theorem completionEvent_isSome_iff (p : Params) (d : DecoderState) :
    (completionEvent p d).isSome = true ↔ d.armed = true ∧ p.kBits < d.pos.toNat := by
  simp [completionEvent, isComplete]

/-- Settles O42: position 1 is not past K_BITS, and only steps (1) and (5) write the position. -/
theorem atMostOneDispatchPerInvocation : Obligations.AtMostOneDispatchPerInvocation := by
  rintro p lv t d d1 d3 ⟨-, ⟨-, -, hk, -⟩, -⟩ hd1 hd3
  have hpos : d3.pos = d1.pos := by simp [hd3]
  have hreceive (h : (completionEvent p d3).isSome = true) : p.kBits < d3.pos.toNat :=
    ((completionEvent_isSome_iff p d3).mp h).2
  refine ⟨pos_eq_one_of_repeatRule_isSome, hreceive, hk, hpos, ?_, ?_⟩
  · rintro ⟨hrep, hrec⟩
    have hlt := hreceive hrec
    rw [hpos, pos_eq_one_of_repeatRule_isSome hrep] at hlt
    exact absurd (show p.kBits < 1 from hlt) (Nat.not_lt.mpr hk)
  · rw [hd3, hd1, decStep]

/-- Settles O43. -/
theorem thresholdsAreStrict : Obligations.ThresholdsAreStrict := by
  intro p d
  refine ⟨exceeds_iff, fun harm hpos => ?_, fun _ => ?_, fun hpos hdis => ?_, fun hpos hdis hdone hlo => ?_⟩
  · rw [decStep_past_header (isLongGap_falling p _) hpos, shiftRule_falling harm]
    simp [shiftIn]
  · rw [decStep_pos, longGapRule_of_no_gap (by simp), inc8]
  · rw [decStep_of_disarmed (isLongGap_falling p _) (by simp [isHeader]) hdis]
    exact hdis
  · rw [decStep_of_disarmed (isLongGap_falling p _) (by simp [isHeader]) hdis]
    simp [repeatRule, isRepeatMarker, hpos, hdone, (exceeds_iff _ _).mpr hlo]

end Sys2Proof.Machine
end

section
/-! A frame on the decoder (41_decoder.md R178): the gap, the header and the data bits as a sequence of edges, and the bits
of the register after them. -/

namespace Sys2Proof.Machine

open Sys2Proof

/-! ## The register (41_decoder.md R170) -/

theorem shiftIn_getLsbD (code : CodeWord) (bit : Bool) {k : Nat} (hk : k < 16) :
    (shiftIn code bit).getLsbD k = if k = 0 then bit else code.getLsbD (k - 1) := by
  rw [shiftIn_eq_append, BitVec.getLsbD_append]
  cases k with
  | zero => simp
  | succ k => simp [Nat.lt_of_succ_lt_succ hk]

theorem shiftAll_append (code : CodeWord) (u v : List Bool) : shiftAll code (u ++ v) = shiftAll (shiftAll code u) v := by
  induction u generalizing code with
  | nil => rfl
  | cons b rest ih => exact ih (shiftIn code b)

/-- The last bit shifted in stands in bit 0, and the old register above all of them. -/
theorem shiftAll_getLsbD (code : CodeWord) (bits : List Bool) {k : Nat} (hk : k < 16) :
    (shiftAll code bits).getLsbD k =
      if k < bits.length then bits.reverse.getD k false else code.getLsbD (k - bits.length) := by
  induction bits generalizing code with
  | nil => simp [shiftAll]
  | cons b rest ih =>
    rw [shiftAll, ih, List.reverse_cons, List.length_cons]
    rcases Nat.lt_trichotomy k rest.length with hlt | heq | hgt
    · simp [hlt, Nat.lt_succ_of_lt hlt]
    · rw [if_neg heq.not_lt, shiftIn_getLsbD _ _ (by omega)]
      simp [heq]
    · have hsub : k - rest.length - 1 = k - (rest.length + 1) := by omega
      rw [if_neg (by omega), if_neg (by omega), shiftIn_getLsbD _ _ (by omega), if_neg (by omega), hsub]

/-! ## The edges of a data bit -/

/-- The two edges of a data bit: the rising edge that ends its low, and the falling edge that ends its high. -/
def bitEdges (b : Bool × Ticks × Ticks) : List (Bool × Ticks) := [(true, b.2.1), (false, b.2.2)]

/-- A data bit as a frame holds it: no long gap, and the high above T_SHORT exactly for a 1. -/
def DataBit (p : Params) (b : Bool × Ticks × Ticks) : Prop :=
  b.2.1.toNat ≤ p.tGap.toNat ∧ (b.1 = true ↔ p.tShort.toNat < b.2.2.toNat)

section
variable {p : Params} {d : DecoderState}

theorem pos_ne_one_of_two_le (h : 2 ≤ d.pos.toNat) : d.pos ≠ 1 := by
  intro he
  rw [he] at h
  exact absurd h (by decide)

/-- Before completion a rising edge within a frame only counts. -/
theorem decStep_rising_in_frame {t : Ticks} (hgap : t.toNat ≤ p.tGap.toNat) (hlow : 2 ≤ d.pos.toNat)
    (hpos : d.pos.toNat ≤ p.kBits) : decStep p true t d = (countRule d, none) := by
  have hng : isLongGap p true t = false := by simpa [exceeds] using hgap
  have hinc : isComplete p d = false := isComplete_of_pos_le hpos
  rw [decStep_past_header hng (pos_ne_one_of_two_le hlow), shiftRule_rising, completionRule_of_incomplete hinc,
    completionEvent_of_incomplete hinc]

/-- Before completion a falling edge within a frame shifts its bit in and counts. -/
theorem decStep_falling_in_frame {t : Ticks} (harm : d.armed = true) (hlow : 2 ≤ d.pos.toNat)
    (hpos : d.pos.toNat ≤ p.kBits) :
    decStep p false t d = (countRule { d with code := shiftIn d.code (exceeds t p.tShort) }, none) := by
  have hinc : isComplete p { d with code := shiftIn d.code (exceeds t p.tShort) } = false := isComplete_of_pos_le hpos
  rw [decStep_past_header (isLongGap_falling p t) (pos_ne_one_of_two_le hlow), shiftRule_falling harm,
    completionRule_of_incomplete hinc, completionEvent_of_incomplete hinc]

/-- Past K_BITS a falling edge shifts its bit in, and the frame is complete. -/
theorem decStep_falling_completes {t : Ticks} (harm : d.armed = true) (hlow : 2 ≤ d.pos.toNat)
    (hpos : p.kBits < d.pos.toNat) :
    decStep p false t d =
      ({ d with
          pos := inc8 d.pos
          code := shiftIn d.code (exceeds t p.tShort)
          last := shiftIn d.code (exceeds t p.tShort)
          done := true
          armed := false },
        some (.receive (shiftIn d.code (exceeds t p.tShort)))) := by
  have hc : isComplete p { d with code := shiftIn d.code (exceeds t p.tShort) } = true := isComplete_of_pos_gt harm hpos
  rw [decStep_past_header (isLongGap_falling p t) (pos_ne_one_of_two_le hlow), shiftRule_falling harm,
    completionRule_of_complete hc, completionEvent_of_complete hc]
  rfl

theorem exceeds_of_dataBit {b : Bool × Ticks × Ticks} (h : DataBit p b) : exceeds b.2.2 p.tShort = b.1 :=
  Bool.eq_iff_iff.mpr ((exceeds_iff _ _).trans h.2.symm)

/-- A data bit before the last dispatches nothing and shifts in. -/
theorem decSteps_bitEdges {b : Bool × Ticks × Ticks} (hb : DataBit p b) (harm : d.armed = true) (hlow : 2 ≤ d.pos.toNat)
    (hpos : d.pos.toNat + 2 ≤ p.kBits + 1) (hk : p.kBits ≤ 254) :
    decSteps p (bitEdges b) d =
      ({ d with pos := inc8 (inc8 d.pos), code := shiftIn d.code b.1 }, [none, none]) := by
  have hinc : (countRule d).pos.toNat = d.pos.toNat + 1 := by
    rw [countRule_pos, inc8_toNat]
    omega
  simp only [bitEdges, decSteps, decStep_rising_in_frame hb.1 hlow (by omega),
    decStep_falling_in_frame (p := p) (d := countRule d) harm (by omega) (by omega), exceeds_of_dataBit hb]
  rfl

/-- The last data bit completes the frame at its falling edge. -/
theorem decSteps_lastBitEdges {b : Bool × Ticks × Ticks} (hb : DataBit p b) (harm : d.armed = true)
    (hlow : 2 ≤ d.pos.toNat) (hpos : d.pos.toNat = p.kBits) (hk : p.kBits ≤ 254) :
    decSteps p (bitEdges b) d =
      ({ d with
          pos := inc8 (inc8 d.pos)
          code := shiftIn d.code b.1
          last := shiftIn d.code b.1
          done := true
          armed := false },
        [none, some (.receive (shiftIn d.code b.1))]) := by
  have hinc : (countRule d).pos.toNat = d.pos.toNat + 1 := by
    rw [countRule_pos, inc8_toNat]
    omega
  simp only [bitEdges, decSteps, decStep_rising_in_frame hb.1 hlow (by omega),
    decStep_falling_completes (p := p) (d := countRule d) harm (by omega) (by omega), exceeds_of_dataBit hb]
  rfl

/-- The data bits of a frame but its last: each takes two positions, shifts in and dispatches nothing. -/
theorem decSteps_flatMap_bitEdges {bits : List (Bool × Ticks × Ticks)} (hbits : ∀ b ∈ bits, DataBit p b)
    (harm : d.armed = true) (hlow : 2 ≤ d.pos.toNat) (hpos : d.pos.toNat + 2 * bits.length ≤ p.kBits + 1)
    (hk : p.kBits ≤ 254) :
    ∃ pos : Byte, pos.toNat = d.pos.toNat + 2 * bits.length ∧
      decSteps p (bits.flatMap bitEdges) d =
        ({ d with pos := pos, code := shiftAll d.code (bits.map (·.1)) }, List.replicate (2 * bits.length) none) := by
  induction bits generalizing d with
  | nil => exact ⟨d.pos, rfl, rfl⟩
  | cons b rest ih =>
    rw [List.length_cons] at hpos
    have hinc : (inc8 (inc8 d.pos)).toNat = d.pos.toNat + 2 := by
      rw [inc8_toNat, inc8_toNat]
      omega
    obtain ⟨pos, hp, hrest⟩ := ih (d := { d with pos := inc8 (inc8 d.pos), code := shiftIn d.code b.1 })
      (fun b' hb' => hbits b' (List.mem_cons_of_mem b hb')) harm (by rw [hinc]; omega) (by rw [hinc]; omega)
    refine ⟨pos, by rw [hp, hinc, List.length_cons]; omega, ?_⟩
    rw [List.flatMap_cons, decSteps_append,
      decSteps_bitEdges (hbits b List.mem_cons_self) harm hlow (by omega) hk, hrest]
    simp [shiftAll, Nat.mul_add, List.replicate_succ]

/-- The frame's data bits after the header: one dispatch, at the last edge, of the register with all the bits shifted in. -/
theorem decSteps_dataBits {bits : List (Bool × Ticks × Ticks)} (hbits : ∀ b ∈ bits, DataBit p b)
    (hlen : p.kBits = 2 * bits.length) (hne : bits ≠ []) (harm : d.armed = true) (hpos : d.pos = 2)
    (hk : p.kBits ≤ 254) :
    ∃ pos : Byte, decSteps p (bits.flatMap bitEdges) d =
      ({ d with
          pos := pos
          code := shiftAll d.code (bits.map (·.1))
          last := shiftAll d.code (bits.map (·.1))
          done := true
          armed := false },
        List.replicate (2 * bits.length - 1) none ++ [some (.receive (shiftAll d.code (bits.map (·.1))))]) := by
  obtain ⟨init, b, rfl⟩ := (List.eq_nil_or_concat' bits).resolve_left hne
  have h2 : d.pos.toNat = 2 := by rw [hpos]; rfl
  rw [List.length_append, List.length_singleton] at hlen
  obtain ⟨pos, hp, hinit⟩ := decSteps_flatMap_bitEdges (d := d)
    (fun b' hb' => hbits b' (List.mem_append_left _ hb')) harm h2.ge (by omega) hk
  have hlast := decSteps_lastBitEdges (d := { d with pos := pos, code := shiftAll d.code (init.map (·.1)) })
    (hbits b (by simp)) harm (by rw [hp]; omega) (by rw [hp]; omega) hk
  refine ⟨inc8 (inc8 pos), ?_⟩
  rw [List.flatMap_append, decSteps_append, hinit, List.flatMap_singleton, hlast]
  simp [shiftAll_append, shiftAll, Nat.mul_add, List.replicate_succ']

/-- The whole frame: the gap restarts the decoder, the header arms it and shifts the first bit, and the data bits follow. -/
theorem decSteps_frame {tGapEnd tHeader : Ticks} {bits : List (Bool × Ticks × Ticks)} {w : CodeWord} (hne : bits ≠ [])
    (hlen : p.kBits = 2 * bits.length) (hk : p.kBits ≤ 254) (hgap : exceeds tGapEnd p.tGap = true)
    (hhdr : exceeds tHeader p.tHdrHi = true) (hbits : ∀ b ∈ bits, DataBit p b)
    (hw : w = shiftAll 0 (exceeds tHeader p.tShort :: bits.map (·.1))) :
    ∃ pos : Byte, decSteps p ((true, tGapEnd) :: (false, tHeader) :: bits.flatMap bitEdges) d =
      ({ d with pos := pos, code := w, last := w, done := true, armed := false },
        List.replicate (2 * bits.length + 1) none ++ [some (.receive w)]) := by
  have hn : 0 < bits.length := List.length_pos_of_ne_nil hne
  have hheader := decStep_of_header (p := p) (d := { d with pos := 1, armed := false }) (by omega) rfl hhdr
  obtain ⟨pos, hdata⟩ := decSteps_dataBits (d := { d with
    pos := 2, armed := true, code := shiftIn 0 (exceeds tHeader p.tShort), done := false }) hbits hlen hne rfl rfl hk
  have hrep : 2 * bits.length + 1 = 2 * bits.length - 1 + 1 + 1 := by omega
  refine ⟨pos, ?_⟩
  rw [hw, hrep, List.replicate_succ, List.replicate_succ]
  simp only [decSteps, decStep_of_longGap hgap, hheader, hdata]
  rfl

end

/-- Settles O46: the register after the whole frame, and its bits from the last one shifted in up to the header's. -/
theorem frameDecodesToItsCodeWord : Obligations.FrameDecodesToItsCodeWord := by
  rintro p d tGapEnd tHeader bits ⟨-, ⟨-, -, hk1, hk2, -⟩, -⟩ hlen hgap hhdr hbits
  have hne : bits ≠ [] := by
    rintro rfl
    simp only [List.length_nil] at hlen
    omega
  obtain ⟨pos, hframe⟩ := decSteps_frame (d := d) hne hlen hk2 ((exceeds_iff _ _).mpr hgap) ((exceeds_iff _ _).mpr hhdr)
    hbits rfl
  have hbit (k : Nat) (hk : k < 16) := shiftAll_getLsbD 0 (exceeds tHeader p.tShort :: bits.map (·.1)) hk
  refine ⟨_, _, hframe, rfl, rfl, rfl, rfl, fun k hk hkn => ?_, fun hn => ?_, fun k hkn => ?_⟩
  · rw [hbit k hk]
    simp [Nat.lt_succ_of_lt hkn, hkn]
  · rw [hbit _ hn]
    simp [exceeds]
  · by_cases hk : k < 16
    · rw [hbit k hk, if_neg (by simpa using hkn)]
      exact BitVec.getLsbD_zero
    · exact BitVec.getLsbD_of_ge _ _ (Nat.not_lt.mp hk)

end Sys2Proof.Machine
end

section
/-! A pin dispatch in its cycle (41_decoder.md R162): what a decoder invocation reads of the state, and what the cycle it
runs in leaves of its writes. -/

namespace Sys2Proof.Machine

open Sys2Proof

/-! ## What an invocation depends on -/

/-- `s` and `t` agree on all that a decoder invocation and its dispatch read. -/
def SameDecoderInput (s t : State) : Prop := s.cfg = t.cfg ∧ s.rs = t.rs ∧ s.ds = t.ds ∧ s.evt = t.evt

/-- `s` and `t` agree on all that a decoder invocation and its dispatch write. -/
def SameDecoderOutput (s t : State) : Prop := s.ds = t.ds ∧ s.rs = t.rs ∧ s.evt = t.evt

theorem interpret_ds (e : Event) (s : State) : (interpret e s).ds = { s.ds with rep := repAfter s.ds e } := by
  obtain ⟨rs, h, -⟩ := interpret_eq e s
  rw [h]
  rfl

theorem interpret_evt (e : Event) (s : State) : (interpret e s).evt =
    eventRecord e.isRepeat e.word (lookupIndex s.params e.word) (executes s.params e) := by
  obtain ⟨rs, h, -⟩ := interpret_eq e s
  rw [h]
  rfl

theorem interpret_congr (e : Event) {s t : State} (h : SameDecoderInput s t) :
    SameDecoderOutput (interpret e s) (interpret e t) := by
  obtain ⟨hcfg, hrs, hds, -⟩ := h
  have hp : s.params = t.params := congrArg Subtype.val hcfg
  refine ⟨by rw [interpret_ds, interpret_ds, hds], ?_, by rw [interpret_evt, interpret_evt, hp]⟩
  rw [interpret_rs, interpret_rs, hp]
  cases executedAction t.params e with
  | none => exact hrs
  | some a => exact runAction_rs_congr a hrs (by simp [hds])

theorem runDecoder_congr (lv : Bool) (k : Ticks) {s t : State} (h : SameDecoderInput s t) :
    SameDecoderOutput (runDecoder lv k s) (runDecoder lv k t) := by
  obtain ⟨hcfg, hrs, hds, hevt⟩ := h
  have hp : s.params = t.params := congrArg Subtype.val hcfg
  cases hev : (decStep s.params lv k s.ds).2 with
  | none =>
    have hev' : (decStep t.params lv k t.ds).2 = none := by rw [← hp, ← hds, hev]
    rw [runDecoder_of_no_event hev, runDecoder_of_no_event hev']
    exact ⟨by simp [hp, hds], hrs, hevt⟩
  | some e =>
    have hev' : (decStep t.params lv k t.ds).2 = some e := by rw [← hp, ← hds, hev]
    rw [runDecoder_of_event hev, runDecoder_of_event hev']
    exact interpret_congr e ⟨hcfg, hrs, by simp [hp, hds], hevt⟩

/-! ## The cycle of a pin dispatch -/

/-- Nothing accepted beside a pin dispatch writes DS, RS or EVT (20_memory.md R65, 60_exceptions.md R268). -/
theorem step_beside_dispatch {s t : State} (hr : rstIn s = false) (hp : pinDispatch s = true) (h : step s = .next t) :
    SameDecoderOutput t (advance s) := by
  rcases step_cases h with ⟨hrst, -⟩ | ⟨-, i, -, -, hready, -, hexec⟩ | ⟨-, -, -, rfl⟩ | ⟨-, -, -, -, rfl⟩
  · simp [hr] at hrst
  · obtain ⟨hrs, hds, hevt⟩ := exec_beside_dispatch hp hready hexec
    exact ⟨hds, hrs, hevt⟩
  · exact ⟨rfl, rfl, rfl⟩
  · exact ⟨rfl, rfl, rfl⟩

/-- Settles O35: the front end restarts its counters at the clock edge, and the invocation on top of it reads nothing that
the clock edge writes but evt_valid. -/
theorem pinEdgeRunsTheDecoderInItsCycle : Obligations.PinEdgeRunsTheDecoderInItsCycle := by
  intro s t hr hmask hedge h
  have hp : pinDispatch s = true := by simpa [pinDispatch, hmask] using hedge
  obtain ⟨-, hfe, -⟩ := step_parts hr h
  rw [clockFrontEnd_dispatch hp] at hfe
  have hclock : SameDecoderInput (clockEdge s) { s with evt := { s.evt with valid := false } } := ⟨rfl, rfl, rfl, rfl⟩
  obtain ⟨hds, hrs, hevt⟩ := advance_of_dispatch hp ▸ step_beside_dispatch hr hp h
  obtain ⟨hds', hrs', hevt'⟩ := runDecoder_congr s.fe.s2 s.fe.ticks hclock
  exact ⟨by rw [hfe], by rw [hfe], by rw [hfe], _, rfl, hds.trans hds', hrs.trans hrs', hevt.trans hevt'⟩

end Sys2Proof.Machine
end

section
/-! The interpreter's lookup and actions (42_interpreter.md R201, R207 to R216): the entry a looked-up index names, the
adjustments as steps by DS.REP, and the bounds they are clamped to. -/

namespace Sys2Proof.Machine

open Sys2Proof

/-! ## The lookup -/

/-- The search fits the index: no table is long enough to wrap it (00_scope.md R10). -/
theorem lookupIndex_spec (c : Config) (w : CodeWord) :
    (w ∉ c.val.codeTable ∧ lookupIndex c.val w = 0) ∨
    (∃ k, (lookupIndex c.val w).toNat = k + 1 ∧ k < c.val.nCmd ∧ c.val.codeTable[k]? = some w ∧
      ∀ j < k, c.val.codeTable[j]? ≠ some w) := by
  obtain ⟨-, -, hn, hl, -, -⟩ := c.property
  rcases lookupFrom_spec w c.val.codeTable 1 with ⟨hw, h⟩ | ⟨k, h, hk, hfirst⟩
  · exact .inl ⟨hw, by simp [lookupIndex, h]⟩
  · obtain ⟨hlt, -⟩ := List.getElem?_eq_some_iff.mp hk
    refine .inr ⟨k, ?_, by omega, hk, hfirst⟩
    rw [lookupIndex, h, BitVec.toNat_ofNat, Nat.mod_eq_of_lt (by omega), Nat.add_comm]

/-- Settles O47: an index counts the entries from 1, so entry k of the list is index k + 1. -/
theorem lookupFindsTheFirstMatch : Obligations.LookupFindsTheFirstMatch := by
  intro c w
  rcases lookupIndex_spec c w with ⟨hw, h⟩ | ⟨k, hi, hlt, hk, hfirst⟩
  · exact ⟨fun _ => h, fun hin => absurd hin hw⟩
  · refine ⟨fun hw => absurd (List.mem_of_getElem? hk) hw, fun _ => ?_⟩
    rw [hi]
    exact ⟨by omega, by omega, hk, fun j hj hjk => hfirst (j - 1) (by omega)⟩

/-! ## Adjustments -/

/-- An adjustment steps by DS.REP of the state it runs in (42_interpreter.md R206). -/
theorem runAction_adjustsBy (a : Instr) (s : State) : AdjustsBy s.ds.rep.toNat s.rs (runAction a s).rs a := by
  cases a
  case aBrightUp => exact ⟨_, satAdd8_toNat s.rs.bright s.ds.rep, rfl⟩
  case aBrightDown => exact ⟨_, satSub8_toNat s.rs.bright s.ds.rep, rfl⟩
  case aSpeedUp => exact ⟨_, satAdd8_toNat s.rs.speed s.ds.rep, rfl⟩
  case aSpeedDown => exact ⟨_, satSub8_toNat s.rs.speed s.ds.rep, rfl⟩
  all_goals exact trivial

/-! ## Bounds -/

theorem le_satAdd8 (a k : Byte) : a.toNat ≤ (satAdd8 a k).toNat := by
  have := byte_toNat_le a
  rw [satAdd8_toNat]
  omega

theorem satSub8_le (a k : Byte) : (satSub8 a k).toNat ≤ a.toNat := by
  rw [satSub8_toNat]
  omega

theorem satAdd8_max (k : Byte) : satAdd8 255 k = 255 :=
  byte_ext (Nat.le_antisymm (byte_toNat_le _) (le_satAdd8 255 k))

theorem satSub8_zero (k : Byte) : satSub8 0 k = 0 :=
  byte_ext (Nat.le_antisymm (satSub8_le 0 k) (Nat.zero_le _))

theorem raiseBrightness_at_max {s : State} (k : Byte) (h : s.rs.bright = 255) : raiseBrightness k s = s := by
  rw [raiseBrightness, h, satAdd8_max, ← h]
  rfl

theorem lowerBrightness_at_zero {s : State} (k : Byte) (h : s.rs.bright = 0) : lowerBrightness k s = s := by
  rw [lowerBrightness, h, satSub8_zero, ← h]
  rfl

theorem raiseSpeed_at_max {s : State} (k : Byte) (h : s.rs.speed = 255) : raiseSpeed k s = s := by
  rw [raiseSpeed, h, satAdd8_max, ← h]
  rfl

theorem lowerSpeed_at_zero {s : State} (k : Byte) (h : s.rs.speed = 0) : lowerSpeed k s = s := by
  rw [lowerSpeed, h, satSub8_zero, ← h]
  rfl

/-- Settles O54: a clamped sum is never below what it adds to, and a clamped difference never above what it takes from, so
at the bound both stay where they are. -/
theorem boundsNeverWrap : Obligations.BoundsNeverWrap := by
  intro s
  refine ⟨fun h => congrArg _ (raiseBrightness_at_max _ h), fun h => congrArg _ (lowerBrightness_at_zero _ h),
    fun h => congrArg _ (raiseSpeed_at_max _ h), fun h => congrArg _ (lowerSpeed_at_zero _ h), ?_, ?_, ?_, ?_⟩
  · rintro t ⟨⟩
    exact le_satAdd8 s.rs.bright s.ds.rep
  · rintro t ⟨⟩
    exact satSub8_le s.rs.bright s.ds.rep
  · rintro t ⟨⟩
    exact le_satAdd8 s.rs.speed s.ds.rep
  · rintro t ⟨⟩
    exact satSub8_le s.rs.speed s.ds.rep

end Sys2Proof.Machine
end

section
/-! Dispatches and runs of repeats (42_interpreter.md R203 to R205, R214 to R217): which action a dispatch executes, and
what any number of repeats of one code word leaves. -/

namespace Sys2Proof.Machine

open Sys2Proof

/-! ## The executed action -/

theorem executedAction_of_unrecognised {p : Params} {e : Event} (h : lookupIndex p e.word = 0) :
    executedAction p e = none := by
  rw [executedAction, h, actionAt_zero, ite_self]

theorem executes_of_unrecognised {p : Params} {e : Event} (h : lookupIndex p e.word = 0) : executes p e = false := by
  simp [executes, h]

/-- The excluded range is what its bounds say for a recognised index (42_interpreter.md R205). -/
theorem suppressed_iff {p : Params} {i : CmdIndex} (h0 : i ≠ 0) :
    suppressed p i = true ↔ p.exLo.toNat ≤ i.toNat ∧ i.toNat ≤ p.exHi.toNat := by
  rw [suppressed, decide_eq_true h0, Bool.true_and, Bool.and_eq_true, decide_eq_true_iff, decide_eq_true_iff]

theorem executedAction_of_suppressed {p : Params} {w : CodeWord} (h : suppressed p (lookupIndex p w) = true) :
    executedAction p (.repeated w) = none := by
  simp [executedAction, Event.isRepeat, Event.word, h]

theorem executes_of_suppressed {p : Params} {w : CodeWord} (h : suppressed p (lookupIndex p w) = true) :
    executes p (.repeated w) = false := by
  simp [executes, Event.isRepeat, Event.word, h]

/-- A repeat outside the excluded range executes the action its descriptor decodes to. -/
theorem executedAction_of_descriptor {p : Params} {w : CodeWord} {d : Descriptor} {a : Instr}
    (h0 : lookupIndex p w ≠ 0) (hs : ¬ suppressed p (lookupIndex p w) = true)
    (hd : p.action[(lookupIndex p w).toNat - 1]? = some d) (ha : decodeDescriptor d = .ok a) :
    executedAction p (.repeated w) = some a := by
  have hact : actionAt p (lookupIndex p w) = some a := by
    rw [actionAt, if_neg h0, hd]
    simp only [ha, Except.toOption]
  simpa [executedAction, Event.isRepeat, Event.word, hs] using hact

theorem interpret_rs_of_none {e : Event} {s : State} (h : executedAction s.params e = none) :
    (interpret e s).rs = s.rs := by
  rw [interpret_rs, h]

theorem interpret_rs_of_some {e : Event} {s : State} {a : Instr} (h : executedAction s.params e = some a) :
    (interpret e s).rs = (runAction a (s.withRep (repAfter s.ds e))).rs := by
  rw [interpret_rs, h]

theorem interpret_rep (e : Event) (s : State) : (interpret e s).ds.rep = repAfter s.ds e := by
  rw [interpret_ds]

/-- Settles O55: no action is executed for index 0, on the receive path or on the repeat path. -/
theorem unrecognisedCodeKeepsTheRenderState : Obligations.UnrecognisedCodeKeepsTheRenderState := by
  intro w s h
  have hevt (e : Event) (he : lookupIndex s.params e.word = 0) :
      (interpret e s).evt = eventRecord e.isRepeat e.word 0 false := by
    rw [interpret_evt, executes_of_unrecognised he, he]
  refine ⟨⟨interpret (.receive w) s, rfl, interpret_rs_of_none (executedAction_of_unrecognised h),
      interpret_rep _ s, hevt (.receive w) h⟩,
    ⟨interpret (.repeated w) s, rfl, interpret_rs_of_none (executedAction_of_unrecognised h), ?_,
      hevt (.repeated w) h⟩⟩
  rw [interpret_rep]
  exact satInc8_toNat s.ds.rep

/-! ## Runs of repeats -/

/-- `n` repeats of `w`, one after the other. -/
def repeats (w : CodeWord) (n : Nat) (s : State) : State := (interpret (.repeated w))^[n] s

@[simp] theorem repeats_zero (w : CodeWord) (s : State) : repeats w 0 s = s := rfl

theorem repeats_succ (w : CodeWord) (n : Nat) (s : State) :
    repeats w (n + 1) s = interpret (.repeated w) (repeats w n s) :=
  Function.iterate_succ_apply' _ _ _

theorem execAll_repeats (w : CodeWord) (n : Nat) (s : State) :
    execAll (List.replicate n (.cmdRepeat w)) s = .next (repeats w n s) := by
  induction n generalizing s with
  | zero => rfl
  | succ n ih => exact ih (interpret (.repeated w) s)

theorem execAll_receive_repeats (w : CodeWord) (n : Nat) (s : State) :
    execAll (.cmdReceive w :: List.replicate n (.cmdRepeat w)) s = .next (repeats w n (interpret (.receive w) s)) :=
  execAll_repeats w n (interpret (.receive w) s)

theorem interpret_cfg (e : Event) (s : State) : (interpret e s).cfg = s.cfg :=
  (interpret_operationFrame e s).1

theorem repeats_cfg (w : CodeWord) (n : Nat) (s : State) : (repeats w n s).cfg = s.cfg := by
  induction n with
  | zero => rfl
  | succ n ih => rw [repeats_succ, interpret_cfg, ih]

theorem interpret_params (e : Event) (s : State) : (interpret e s).params = s.params :=
  congrArg Subtype.val (interpret_cfg e s)

theorem repeats_params (w : CodeWord) (n : Nat) (s : State) : (repeats w n s).params = s.params :=
  congrArg Subtype.val (repeats_cfg w n s)

/-- Each repeat adds 1 to DS.REP, and 255 stays 255 (42_interpreter.md R214). -/
theorem repeats_rep (w : CodeWord) (n : Nat) (s : State) :
    (repeats w n s).ds.rep.toNat = min 255 (s.ds.rep.toNat + n) := by
  induction n with
  | zero => exact (Nat.min_eq_right (byte_toNat_le _)).symm
  | succ n ih =>
    have hinc : (repAfter (repeats w n s).ds (.repeated w)).toNat = min 255 ((repeats w n s).ds.rep.toNat + 1) :=
      satInc8_toNat _
    rw [repeats_succ, interpret_rep, hinc, ih]
    omega

theorem receive_repeats_rep (w : CodeWord) (n : Nat) (s : State) :
    (repeats w n (interpret (.receive w) s)).ds.rep.toNat = min 255 n := by
  have hzero : (interpret (.receive w) s).ds.rep.toNat = 0 := congrArg BitVec.toNat (interpret_rep (.receive w) s)
  rw [repeats_rep, hzero, Nat.zero_add]

/-- An adjustment outside the excluded range steps by the DS.REP that its own repeat has counted up (42_interpreter.md
R204, R206). -/
theorem interpret_repeated_adjustsBy {s : State} {w : CodeWord} {a : Instr}
    (h : executedAction s.params (.repeated w) = some a) :
    AdjustsBy (min 255 (s.ds.rep.toNat + 1)) s.rs (interpret (.repeated w) s).rs a := by
  rw [interpret_rs_of_some h, ← satInc8_toNat]
  exact runAction_adjustsBy a (s.withRep (satInc8 s.ds.rep))

/-- Settles O52: the repeats before it have brought DS.REP to min(255, r0 + n), with r0 = 0 after a receive, and the next
repeat steps by one more, clamped. -/
theorem repeatsAccelerate : Obligations.RepeatsAccelerate := by
  intro w n s
  refine ⟨⟨_, execAll_repeats w n s, repeats_rep w n s⟩,
    ⟨_, execAll_receive_repeats w n s, receive_repeats_rep w n s⟩, fun d a h0 hex hd ha => ?_⟩
  have hact : executedAction s.params (.repeated w) = some a :=
    executedAction_of_descriptor h0 ((suppressed_iff h0).not.mpr hex) hd ha
  refine ⟨⟨_, _, execAll_repeats w n s, rfl, ?_⟩, ⟨_, _, execAll_receive_repeats w n s, rfl, ?_⟩⟩
  · have hstep : min 255 (s.ds.rep.toNat + n + 1) = min 255 ((repeats w n s).ds.rep.toNat + 1) := by
      rw [repeats_rep]
      omega
    rw [hstep]
    exact interpret_repeated_adjustsBy (by rwa [repeats_params])
  · have hstep : min (n + 1) 255 = min 255 ((repeats w n (interpret (.receive w) s)).ds.rep.toNat + 1) := by
      rw [receive_repeats_rep]
      omega
    rw [hstep]
    exact interpret_repeated_adjustsBy (by rwa [repeats_params, interpret_params])

/-! ## The excluded range -/

theorem repeats_rs_of_suppressed {w : CodeWord} {s : State} (h : suppressed s.params (lookupIndex s.params w) = true)
    (n : Nat) : (repeats w n s).rs = s.rs := by
  induction n with
  | zero => rfl
  | succ n ih =>
    rw [repeats_succ, interpret_rs_of_none (executedAction_of_suppressed (by rwa [repeats_params])), ih]

/-- The last of the repeats is recorded as one, and as not executed. -/
theorem repeats_evt_of_suppressed {w : CodeWord} {s : State} (h : suppressed s.params (lookupIndex s.params w) = true)
    {n : Nat} (hn : 0 < n) : (repeats w n s).evt = eventRecord true w (lookupIndex s.params w) false := by
  obtain ⟨m, rfl⟩ : ∃ m, n = m + 1 := ⟨n - 1, by omega⟩
  rw [repeats_succ, interpret_evt, repeats_params, executes_of_suppressed h]
  rfl

/-- Settles O53: a repeat of an excluded index executes no action, so the Render State stays as the receive left it. -/
theorem excludedIndexActsOnlyOnReceive : Obligations.ExcludedIndexActsOnlyOnReceive := by
  intro w n s h0 hlo hhi
  have hs : suppressed (interpret (.receive w) s).params (lookupIndex (interpret (.receive w) s).params w) = true := by
    rw [interpret_params]
    exact (suppressed_iff h0).mpr ⟨hlo, hhi⟩
  refine ⟨_, _, rfl, execAll_receive_repeats w n s, repeats_rs_of_suppressed hs n, receive_repeats_rep w n s,
    fun hn => ?_⟩
  rw [repeats_evt_of_suppressed hs hn]
  exact ⟨rfl, rfl⟩

end Sys2Proof.Machine
end

section
/-! The countdown of the render step (43_render.md R240 to R247): the one law of RS.CD in a cycle, what a FRAME_TICK sends, and
RS.CD after any number of ticks since a SELECT. -/

namespace Sys2Proof.Machine

open Sys2Proof

/-! ## The frame of a cycle -/

/-- A pixel is not blended once the countdown is over (43_render.md R242). -/
theorem pixelColor_of_cd_zero {p : Params} {rs : RenderState} (hrun : rs.run = true) (hcd : rs.cd = 0) (i : Nat) :
    pixelColor p rs i = patternColor p rs.mode rs.color i := by
  simp [pixelColor, hrun, hcd]

theorem ready_of_accepted {s : State} {i : Instr} (h : acceptedInstr s = some i) : ready (.ok i) s = true := by
  unfold acceptedInstr at h
  split at h
  next hacc =>
    cases hd : decodeCommand (cmdWord s) with
    | error e => simp [hd, Except.toOption] at h
    | ok j =>
      obtain rfl : j = i := by simpa [hd, Except.toOption] using h
      have hready : rstIn s = false ∧ ready (.ok j) s = true := by
        simpa [cmdAccepted, cmdReady, hd] using (Bool.and_eq_true_iff.mp hacc).2
      exact hready.2
  next => cases h

/-- No pin edge is dispatched where a FRAME_TICK is accepted (30_encoding.md R89). -/
theorem pinDispatch_of_frameTick {s : State} (h : acceptedInstr s = some .frameTick) : pinDispatch s = false :=
  ((ready_ok_iff rfl s).mp (ready_of_accepted h)).2 (.inl rfl)

/-- The frame of an accepted FRAME_TICK is that of the Render State at the start of its cycle (43_render.md R241). -/
theorem step_frameTick_wave {s t : State} (hr : rstIn s = false) (hi : acceptedInstr s = some .frameTick)
    (h : step s = .next t) : t.enc.wave = frameWave s.params (framePixels s.params s.rs) s.rs.bright := by
  have hexec := exec_advance_of_accepted hr hi h
  rw [advance_of_no_dispatch (pinDispatch_of_frameTick hi)] at hexec
  cases hexec
  rfl

/-! ## The countdown of a cycle -/

/-- Of the actions only a SELECT writes RS.CD (42_interpreter.md R213). -/
theorem runAction_cd (a : Instr) (s : State) : (runAction a s).rs.cd = if isSelect a then 255 else s.rs.cd := by
  cases a <;> rfl

theorem interpret_cd (e : Event) (s : State) :
    (interpret e s).rs.cd = if (executedAction s.params e).any isSelect then 255 else s.rs.cd := by
  cases h : executedAction s.params e with
  | none => simp [interpret_rs_of_none h]
  | some a => simp [interpret_rs_of_some h, runAction_cd]

/-- The writers of RS.CD in a cycle: an executed SELECT, which no FRAME_TICK stands beside, or an accepted FRAME_TICK
(10_state.md R48). -/
theorem step_cd {s t : State} (hr : rstIn s = false) (h : step s = .next t) :
    t.rs.cd =
      if (cycleAction s).any isSelect then 255
      else if acceptedInstr s = some .frameTick then satSub8 s.rs.cd s.params.cdStep
      else s.rs.cd := by
  cases he : cycleEvent s with
  | none =>
    have hnone : cycleAction s = none := by simp [cycleAction, he]
    rw [step_rs_of_no_event hr h he, hnone]
    split <;> rfl
  | some e =>
    obtain ⟨hnoTick, v, hcfg, hrs, -, ht, -⟩ := step_interprets hr h he
    have hact : cycleAction s = executedAction v.params e := by
      simp [cycleAction, he, State.params, hcfg]
    rw [ht, interpret_cd, hact, if_neg hnoTick, hrs]

/-! ## Ticks one after the other -/

/-- `k` ticks take `k` times CD_STEP off, down to 0 (43_render.md R246). -/
theorem execAll_frameTicks (k : Nat) (s : State) :
    ∃ t, execAll (List.replicate k .frameTick) s = .next t ∧
      t.rs.cd.toNat = s.rs.cd.toNat - k * s.params.cdStep.toNat := by
  induction k generalizing s with
  | zero => exact ⟨s, rfl, by simp⟩
  | succ k ih =>
    obtain ⟨u, hu, hcd⟩ : ∃ u, exec .frameTick s = .next u ∧ u.rs.cd = satSub8 s.rs.cd s.params.cdStep :=
      ⟨_, rfl, rfl⟩
    obtain ⟨t, ht, htcd⟩ := ih u
    refine ⟨t, by simpa [List.replicate_succ, execAll, hu] using ht, ?_⟩
    have hparams : u.params = s.params := congrArg Subtype.val (exec_cfg hu)
    rw [htcd, hcd, hparams, satSub8_toNat, Nat.sub_sub, Nat.succ_mul, Nat.add_comm]

/-! ## Ticks in a run -/

section
variable {σ : Nat → State} {n : Nat}

theorem Runs.params_eq (h : Runs σ n) {k : Nat} (hk : k ≤ n) : (σ k).params = (σ 0).params := by
  induction k with
  | zero => rfl
  | succ k ih => exact (congrArg Subtype.val (step_cfg (h k hk))).trans (ih (by omega))

/-- From a SELECT in cycle 0 on, RS.CD has lost CD_STEP for each tick, down to 0: the other cycles keep it. -/
theorem Runs.cd_after_select (h : Runs σ (n + 1)) (hr : rstIn (σ 0) = false)
    (hsel : (cycleAction (σ 0)).any isSelect = true)
    (hquiet : ∀ j, 1 ≤ j → j ≤ n → rstIn (σ j) = false ∧ (cycleAction (σ j)).any isSelect = false) :
    (σ (n + 1)).rs.cd.toNat = 255 - frameTicks σ n * (σ 0).params.cdStep.toNat := by
  induction n with
  | zero =>
    rw [step_cd hr (h 0 (by omega)), if_pos hsel, frameTicks, Nat.zero_mul]
    rfl
  | succ n ih =>
    have ih := ih (fun k hk => h k (by omega)) (fun j h1 hj => hquiet j h1 (by omega))
    obtain ⟨hrn, hnosel⟩ := hquiet (n + 1) (by omega) le_rfl
    rw [step_cd hrn (h (n + 1) (by omega)), hnosel, if_neg Bool.false_ne_true, frameTicks]
    split
    · rw [satSub8_toNat, ih, h.params_eq (k := n + 1) (by omega), Nat.sub_sub, Nat.succ_mul]
    · exact ih

end

/-- At step 5 the 51st tick is the one that reaches 0 (43_render.md R247). -/
theorem cd_eq_zero_iff {cd : Byte} {k : Nat} (h : cd.toNat = 255 - 5 * k) : cd = 0 ↔ 51 ≤ k := by
  have hzero : cd = 0 ↔ cd.toNat = 0 := BitVec.toNat_inj.symm
  rw [hzero, h]
  omega

/-- Settles O60: `k` ticks leave 255 - 5k one after the other, and over a run by the law of RS.CD in each cycle; the 51st
reaches 0, where the blend ends. -/
theorem countdownAfterSelect : Obligations.CountdownAfterSelect := by
  have hfive : (5 : Byte).toNat = 5 := rfl
  constructor
  · intro km kc mode color s k hstep
    obtain ⟨t, ht, hcd⟩ := execAll_frameTicks k (selectMode km kc mode color s)
    have hcd' : t.rs.cd.toNat = 255 - 5 * k := by
      rw [hcd, Nat.mul_comm 5 k, ← hfive, ← hstep]
      rfl
    have hzero := cd_eq_zero_iff hcd'
    exact ⟨t, ht, hcd',
      fun hk => ⟨hzero.mpr hk, fun i hrun => pixelColor_of_cd_zero hrun (hzero.mpr hk) i⟩,
      fun hk h0 => absurd (hzero.mp h0) (by omega)⟩
  · intro σ n a hrun hstep hr hact hsel hquiet
    have hcd : (σ (n + 1)).rs.cd.toNat = 255 - 5 * frameTicks σ n := by
      rw [hrun.cd_after_select hr (by simpa [hact] using hsel) hquiet, hstep, hfive, Nat.mul_comm]
    have hzero := cd_eq_zero_iff hcd
    exact ⟨hcd, hzero, fun hk hon i => pixelColor_of_cd_zero hon (hzero.mpr hk) i,
      fun u hrst htick hu => step_frameTick_wave hrst htick hu⟩

end Sys2Proof.Machine
end

section
/-! Port control (44_control.md R250): the word 0 is the one NOP, and its cycle is the cycle's own work. -/

namespace Sys2Proof

/-- NOP's row is the only one that decodes to NOP (30_encoding.md R97). -/
theorem CommandOp.assemble_eq_nop_iff {o : CommandOp} {cw : CommandWord} : o.assemble cw = .nop ↔ o = .nop := by
  cases o <;> simp [CommandOp.assemble]

/-- NOP's mask covers the whole word, so a word fits the row exactly when it is 0 (30_encoding.md R83). -/
theorem CommandOp.fits_nop_iff {cw : CommandWord} :
    cw &&& CommandOp.nop.maskBits = CommandOp.nop.matchBits ↔ cw = 0 := by
  have hmask : CommandOp.nop.maskBits = BitVec.allOnes 64 := rfl
  have hmatch : CommandOp.nop.matchBits = 0 := rfl
  rw [hmask, hmatch, BitVec.and_allOnes]

/-- The word 0 is the one encoding of NOP. -/
theorem decodeCommand_eq_nop_iff {cw : CommandWord} : decodeCommand cw = .ok .nop ↔ cw = 0 := by
  constructor
  · intro h
    obtain ⟨o, -, hfits, hnop⟩ := decodeCommand_ok h
    obtain rfl := CommandOp.assemble_eq_nop_iff.mp hnop.symm
    exact CommandOp.fits_nop_iff.mp hfits
  · rintro rfl
    exact decodeCommand_of_row .nop rfl rfl

/-- A word with OP 0 and any other bit set does not fit the one row its OP names (30_encoding.md R85). -/
theorem decodeCommand_of_nonzero_nop {cw : CommandWord} (hop : opField cw = 0) (hcw : cw ≠ 0) :
    decodeCommand cw = .error (.reservedBits CommandOp.nop.code) :=
  decodeCommand_of_not_fits hop fun hfits => hcw (CommandOp.fits_nop_iff.mp hfits)

namespace Machine

/-- The pin dispatch reads the front end and the encoder, not the port (41_decoder.md R163). -/
@[simp] theorem pinDispatch_presentWord (w : CommandWord) (s : State) :
    pinDispatch (presentWord w s) = pinDispatch s := rfl

/-- NOP waits for nothing but the end of reset (30_encoding.md R89). -/
theorem cmdReady_of_nop {s : State} (hr : rstIn s = false) (hw : cmdWord s = 0) : cmdReady s = true := by
  have hready : ready (.ok .nop) s = true := rfl
  rw [cmdReady, hr, hw, decodeCommand_eq_nop_iff.mpr rfl, hready]
  rfl

/-- Without a pin dispatch the cycle of a NOP is the clock edge alone, which ends an event (10_state.md R44). -/
theorem step_nop_of_no_dispatch {s : State} (h : pinDispatch s = false) :
    step (presentWord 0 s) = .next (clockEdge (presentWord 0 s)) := by
  rw [step_presentWord_nop, advance_of_no_dispatch ((pinDispatch_presentWord 0 s).trans h)]

/-- Settles O56: by the one encoding of NOP, the way of any illegal word, and the cycle of a NOP. -/
theorem nopDoesNothing : Obligations.NopDoesNothing := by
  refine ⟨fun s => ⟨rfl, cmdReady_of_nop⟩, fun _ => decodeCommand_eq_nop_iff, ?_, ?_⟩
  · intro cw s hop hcw
    obtain ⟨-, t, -, hstep⟩ := illegalWord_ready_and_sets_err (decodeCommand_of_nonzero_nop hop hcw) s
    exact ⟨_, hstep, rfl⟩
  · intro s hp
    exact ⟨_, step_nop_of_no_dispatch hp, rfl⟩

end Machine
end Sys2Proof
end

section
/-! Encoding and decoding are inverse (30_encoding.md R81 to R88, R95 to R100): the row a word fits has the word's OP and
fixes the fields it does not use, so the fields an operation takes are all of the word; a program's words are those of its
commands, in order. -/

namespace Sys2Proof

/-! ## Rows -/

theorem CommandOp.code_inj {o o' : CommandOp} (h : o.code = o'.code) : o = o' :=
  Option.some.inj (by rw [← CommandOp.ofCode_code o, ← CommandOp.ofCode_code o', h])

/-- Each kind is found by its KIND (30_encoding.md R96). -/
@[simp] theorem ActionKind.ofCode_code (k : ActionKind) : ActionKind.ofCode k.code = some k := by
  cases k <;> rfl

theorem ActionKind.code_inj {k k' : ActionKind} (h : k.code = k'.code) : k = k' :=
  Option.some.inj (by rw [← ActionKind.ofCode_code k, ← ActionKind.ofCode_code k', h])

/-- What fits a row has the row's OP, and a 0 in every bit of S, H and C that the row reserves (30_encoding.md R83). -/
theorem CommandOp.fields_of_fits {o : CommandOp} {cw : CommandWord} (h : cw &&& o.maskBits = o.matchBits) :
    opField cw = o.code ∧ sField cw &&& sField o.maskBits = 0 ∧ hField cw &&& hField o.maskBits = 0 ∧
      cField cw &&& cField o.maskBits = 0 := by
  have hop : opField cw &&& opField o.maskBits = opField o.matchBits := by
    rw [← h, opField, opField, opField, BitVec.extractLsb'_and]
  have hs : sField cw &&& sField o.maskBits = sField o.matchBits := by
    rw [← h, sField, sField, sField, BitVec.extractLsb'_and]
  have hh : hField cw &&& hField o.maskBits = hField o.matchBits := by
    rw [← h, hField, hField, hField, BitVec.extractLsb'_and]
  have hc : cField cw &&& cField o.maskBits = cField o.matchBits := by
    rw [← h, cField, cField, cField, BitVec.extractLsb'_and]
  have hmask : opField o.maskBits = BitVec.allOnes 8 := by cases o <;> rfl
  have hmatch : opField o.matchBits = o.code ∧ sField o.matchBits = 0 ∧ hField o.matchBits = 0 ∧
      cField o.matchBits = 0 := by cases o <;> decide
  obtain ⟨hmop, hms, hmh, hmc⟩ := hmatch
  rw [hmask, BitVec.and_allOnes] at hop
  exact ⟨hop.trans hmop, hs.trans hms, hh.trans hmh, hc.trans hmc⟩

/-- A word fits no two rows (30_encoding.md R83). -/
theorem CommandOp.eq_of_fits {o o' : CommandOp} {cw : CommandWord} (h : cw &&& o.maskBits = o.matchBits)
    (h' : cw &&& o'.maskBits = o'.matchBits) : o' = o :=
  CommandOp.code_inj ((fields_of_fits h').1.symm.trans (fields_of_fits h).1)

/-- Settles O4: a word decodes by the one row it fits, and fitting a row fixes its OP. -/
theorem legalWordFitsExactlyOneRow : Obligations.LegalWordFitsExactlyOneRow := by
  intro cw
  constructor
  · rintro ⟨i, hi⟩
    obtain ⟨o, -, hfits, -⟩ := decodeCommand_ok hi
    exact ⟨o, hfits, fun o' => CommandOp.eq_of_fits hfits⟩
  · rintro ⟨o, hfits, -⟩
    exact ⟨_, decodeCommand_of_row o (CommandOp.fields_of_fits hfits).1 hfits⟩

/-! ## Decode of encode -/

@[simp] theorem byteField_packCommand (op s : BitVec 8) (h : BitVec 16) (a : BitVec 24) (b : BitVec 8) :
    byteField (packCommand op s h (a ++ b)) = b := by
  rw [byteField_eq_cField, cField_packCommand]
  exact BitVec.extractLsb'_append_eq_right

@[simp] theorem levelField_packCommand (op : BitVec 8) (a : BitVec 7) (lv : Bool) (h : BitVec 16) (c : BitVec 32) :
    levelField (packCommand op (a ++ BitVec.ofBool lv) h c) = lv := by
  rw [levelField_eq_sField, sField_packCommand, BitVec.getLsbD_append]
  simp

/-- A word that fits a row decodes by the row of its OP. -/
theorem decodeCommand_of_fitsRow {cw : CommandWord} {i : Instr} (o : CommandOp) (h : Laws.FitsRow (.command cw))
    (hop : opField cw = o.code) (hi : o.assemble cw = i) : decodeCommand cw = .ok i := by
  obtain ⟨o', hop', hfits⟩ := h
  obtain rfl := CommandOp.code_inj (hop.symm.trans hop')
  rw [decodeCommand_of_row o hop hfits, hi]

/-- A descriptor that fits a row decodes by the row of its KIND, if it gives no field it keeps (30_encoding.md R96). -/
theorem decodeDescriptor_of_fitsRow {d : Descriptor} {i : Instr} (k : ActionKind) (h : Laws.FitsRow (.descriptor d))
    (hk : kindField d = k.code) (hi : k.assemble d = i) (hw : i.wellFormed = true) : decodeDescriptor d = .ok i := by
  obtain ⟨k', hk', hfits⟩ := h
  obtain rfl := ActionKind.code_inj (hk.symm.trans hk')
  subst hi
  exact decodeDescriptor_of_row k hk hfits hw

/-- The encoding of an operation with operands fits its row, and each operand stands in its own field; the other
operations are one word each. -/
theorem decode_encode {i : Instr} (hi : i.wellFormed = true) : decode (encode i) = .ok i := by
  cases i with
  | nop | sendReset | frameTick => decide
  | sendByte b s =>
    exact decodeCommand_of_fitsRow .sendByte (Laws.EncodeFitsRow.sendByte b s) (opField_packCommand ..)
      (by simp [CommandOp.assemble])
  | sendPixel c s =>
    exact decodeCommand_of_fitsRow .sendPixel (Laws.EncodeFitsRow.sendPixel c s) (opField_packCommand ..)
      (by simp [CommandOp.assemble])
  | sendFrame c s =>
    exact decodeCommand_of_fitsRow .sendFrame (Laws.EncodeFitsRow.sendFrame c s) (opField_packCommand ..)
      (by simp [CommandOp.assemble])
  | decEdge lv t =>
    exact decodeCommand_of_fitsRow .decEdge (Laws.EncodeFitsRow.decEdge lv t) (opField_packCommand ..)
      (by simp [CommandOp.assemble])
  | cmdReceive w =>
    exact decodeCommand_of_fitsRow .cmdReceive (Laws.EncodeFitsRow.cmdReceive w) (opField_packCommand ..)
      (by simp [CommandOp.assemble])
  | cmdRepeat w =>
    exact decodeCommand_of_fitsRow .cmdRepeat (Laws.EncodeFitsRow.cmdRepeat w) (opField_packCommand ..)
      (by simp [CommandOp.assemble])
  | aNop | aPower | aBrightUp | aBrightDown | aSpeedUp | aSpeedDown => decide
  | aSelect km kc mode color =>
    exact decodeDescriptor_of_fitsRow .select (Laws.EncodeFitsRow.aSelect km kc mode color)
      (kindField_packDescriptor ..) (by simp [ActionKind.assemble]) hi

/-- Settles O1. -/
theorem decodeOfEncodeIsTheInstruction : Obligations.DecodeOfEncodeIsTheInstruction :=
  fun _ => decode_encode

/-! ## Encode of decode -/

/-- A vector whose upper bits are 0 is its lower bits, zero-extended. -/
theorem zero_append_extractLsb' {m n : Nat} {x : BitVec (m + n)} (h : x &&& (BitVec.allOnes m ++ 0#n) = 0) :
    0#m ++ x.extractLsb' 0 n = x := by
  refine BitVec.eq_of_getLsbD_eq fun i hi => ?_
  have hbit := congrArg (BitVec.getLsbD · i) h
  by_cases hn : i < n
  · simp [BitVec.getLsbD_append, hn]
  · have hm : i - n < m := by omega
    simp [BitVec.getLsbD_append, hn, hm] at hbit
    simp [BitVec.getLsbD_append, hn, hbit]

/-- The byte operand is all of C where the rest of C is reserved (30_encoding.md R83). -/
theorem zero_append_byteField {cw : CommandWord} (h : cField cw &&& 0xFFFFFF00 = 0) :
    0#24 ++ byteField cw = cField cw := by
  rw [byteField_eq_cField]
  exact zero_append_extractLsb' (m := 24) (n := 8) h

/-- The level operand is all of S where the rest of S is reserved (30_encoding.md R83). -/
theorem zero_append_levelField {cw : CommandWord} (h : sField cw &&& 0xFE = 0) :
    0#7 ++ BitVec.ofBool (levelField cw) = sField cw := by
  have hlow : BitVec.ofBool (levelField cw) = (sField cw).extractLsb' 0 1 := by
    rw [levelField_eq_sField]
    exact BitVec.eq_of_getLsbD_eq fun i hi => by simp [Nat.lt_one_iff.mp hi]
  rw [hlow]
  exact zero_append_extractLsb' (m := 7) (n := 1) h

/-- A word is packed from its row's OP and any fields that are its own. -/
theorem packCommand_eq {o : CommandOp} {cw : CommandWord} {s : BitVec 8} {h : BitVec 16} {c : BitVec 32}
    (hop : opField cw = o.code) (hs : sField cw = s) (hh : hField cw = h) (hc : cField cw = c) :
    packCommand o.code s h c = cw := by
  rw [← hop, ← hs, ← hh, ← hc, packCommand_fields]

/-- A field that the mask covers is 0 (30_encoding.md R83). -/
theorem eq_zero_of_reserved {n : Nat} {x m : BitVec n} (h : x &&& m = 0) (hm : m = BitVec.allOnes n := by decide) :
    x = 0 := by
  rwa [hm, BitVec.and_allOnes] at h

/-- The operands of a row and the 0 of its reserved fields are all of a word that fits it. -/
theorem encode_assemble {o : CommandOp} {cw : CommandWord} (h : cw &&& o.maskBits = o.matchBits) :
    encode (o.assemble cw) = .command cw := by
  obtain ⟨hop, hs, hh, hc⟩ := CommandOp.fields_of_fits h
  have hpack {s : BitVec 8} {h : BitVec 16} {c : BitVec 32} (hs : sField cw = s) (hh : hField cw = h)
      (hc : cField cw = c) : Encoded.command (packCommand o.code s h c) = .command cw :=
    congrArg Encoded.command (packCommand_eq hop hs hh hc)
  cases o with
  | nop | sendReset | frameTick =>
    exact hpack (eq_zero_of_reserved hs) (eq_zero_of_reserved hh) (eq_zero_of_reserved hc)
  | sendByte => exact hpack rfl (eq_zero_of_reserved hh) (zero_append_byteField hc).symm
  | sendPixel | sendFrame => exact hpack rfl (eq_zero_of_reserved hh) rfl
  | decEdge => exact hpack (zero_append_levelField hs).symm rfl (eq_zero_of_reserved hc)
  | cmdReceive | cmdRepeat => exact hpack (eq_zero_of_reserved hs) rfl (eq_zero_of_reserved hc)

/-- A descriptor with 0 in its reserved bits is its fields, packed (30_encoding.md R95). -/
theorem packDescriptor_fields {d : Descriptor} (h : d.extractLsb' 40 2 = 0) :
    packDescriptor (kindField d) (kmField d) (kcField d) (modeField d) (colorField d) = d := by
  have hzero : 0#2 = d.extractLsb' 40 2 := h.symm
  rw [packDescriptor, hzero]
  apply BitVec.eq_of_getLsbD_eq
  intro i hi
  simp only [kindField, kmField, kcField, modeField, colorField]
  grind

theorem encode_assemble_action {k : ActionKind} {d : Descriptor} (hk : kindField d = k.code)
    (h : d &&& k.maskBits = k.matchBits) : encode (k.assemble d) = .descriptor d := by
  cases k with
  | nop | power | brightUp | brightDown | speedUp | speedDown =>
    have hd : d &&& BitVec.allOnes 48 = _ := h
    rw [BitVec.and_allOnes] at hd
    rw [hd]
    decide
  | select =>
    have hreserved := congrArg (BitVec.extractLsb' 40 2) h
    rw [BitVec.extractLsb'_and] at hreserved
    have hpack := packDescriptor_fields (eq_zero_of_reserved hreserved)
    rw [hk] at hpack
    exact congrArg Encoded.descriptor hpack

theorem CommandOp.assemble_wellFormed (o : CommandOp) (cw : CommandWord) : (o.assemble cw).wellFormed = true := by
  cases o <;> rfl

/-- Settles O2: what a word or descriptor decodes to has its row's operands, and the row fixes all its other bits. -/
theorem encodeOfDecodeIsTheWord : Obligations.EncodeOfDecodeIsTheWord := by
  intro e i h
  cases e with
  | command cw =>
    obtain ⟨o, -, hfits, rfl⟩ := decodeCommand_ok h
    exact ⟨encode_assemble hfits, o.assemble_wellFormed cw⟩
  | descriptor d =>
    obtain ⟨k, hk, hfits, rfl, hw⟩ := decodeDescriptor_ok h
    exact ⟨encode_assemble_action hk hfits, hw⟩

/-- Settles O3: each of the ten decodings is one evaluation. -/
theorem wordsOfTheSpecDecode : Obligations.WordsOfTheSpecDecode := by
  unfold Obligations.WordsOfTheSpecDecode
  decide

namespace Machine

/-! ## Programs (30_encoding.md R100) -/

/-- Only an action can keep a field it gives (30_encoding.md R96). -/
theorem wellFormed_of_isCommand {i : Instr} (hi : i.isCommand = true) : i.wellFormed = true := by
  cases i with
  | aSelect => cases hi
  | _ => rfl

theorem commandWordOf_of_isCommand {i : Instr} (hi : i.isCommand = true) :
    ∃ cw, commandWordOf i = some cw ∧ decodeCommand cw = .ok i := by
  have hdec := decode_encode (wellFormed_of_isCommand hi)
  cases he : encode i with
  | command cw =>
    rw [he] at hdec
    exact ⟨cw, by rw [commandWordOf, he], hdec⟩
  | descriptor d =>
    rw [he] at hdec
    simp [decodeDescriptor_isAction hdec] at hi

theorem decodeCommand_filterMap_commandWordOf {is : List Instr} (h : ∀ i ∈ is, i.isCommand = true) :
    (is.filterMap commandWordOf).map decodeCommand = is.map .ok := by
  induction is with
  | nil => rfl
  | cons i rest ih =>
    obtain ⟨cw, hcw, hdec⟩ := commandWordOf_of_isCommand (h i List.mem_cons_self)
    rw [List.filterMap_cons_some hcw, List.map_cons, hdec, List.map_cons,
      ih fun j hj => h j (List.mem_cons_of_mem i hj)]

/-- A line expands to commands, where it is none itself (30_encoding.md R100). -/
theorem Pseudo.expand_isCommand {l : Pseudo} (h : ∀ i, l = .command i → i.isCommand = true) :
    ∀ i ∈ l.expand, i.isCommand = true := by
  cases l with
  | command i => simpa [Pseudo.expand] using h i rfl
  | sendStrip colors s =>
    rintro i hi
    rcases List.mem_append.mp hi with hi | hi
    · obtain ⟨c, -, rfl⟩ := List.mem_map.mp hi
      rfl
    · obtain rfl := List.mem_singleton.mp hi
      rfl
  | press w => simp [Pseudo.expand, Instr.isCommand]
  | hold w n =>
    rintro i hi
    rcases List.mem_cons.mp hi with rfl | hi
    · rfl
    · obtain ⟨-, rfl⟩ := List.mem_replicate.mp hi
      rfl
  | edges es =>
    rintro i hi
    obtain ⟨e, -, rfl⟩ := List.mem_map.mp hi
    rfl

/-- A program's words decode to what its lines expand to, when each of its command lines is a command of the host port. -/
theorem decodeCommand_assemble {prog : List Pseudo} (h : ∀ l ∈ prog, ∀ i, l = .command i → i.isCommand = true) :
    (assemble prog).map decodeCommand = (prog.flatMap Pseudo.expand).map .ok := by
  refine decodeCommand_filterMap_commandWordOf fun i hi => ?_
  obtain ⟨l, hl, hil⟩ := List.mem_flatMap.mp hi
  exact Pseudo.expand_isCommand (h l hl) i hil

/-- A program of one line. -/
theorem decodeCommand_assemble_line {l : Pseudo} (h : ∀ i, l = .command i → i.isCommand = true) :
    (assemble [l]).map decodeCommand = l.expand.map .ok := by
  simpa using decodeCommand_assemble (prog := [l]) (by simpa using h)

/-- Settles O5: every line expands to commands, and the words of commands decode back to them, line by line. -/
theorem assembledProgramDecodesToItsCommands : Obligations.AssembledProgramDecodesToItsCommands := by
  refine ⟨fun p prog hfits => decodeCommand_assemble ?_, fun prog rest => ?_, fun i hi => ?_, fun colors v => ?_,
    fun w => ?_, fun w n => ?_, fun es => ?_⟩
  · rintro l hl i rfl
    exact hfits _ hl
  · simp only [assemble, List.flatMap_append, List.filterMap_append]
  · refine decodeCommand_assemble_line ?_
    rintro j ⟨⟩
    exact hi
  · rw [decodeCommand_assemble_line (by simp)]
    simp [Pseudo.expand]
  · exact decodeCommand_assemble_line (by simp)
  · rw [decodeCommand_assemble_line (by simp)]
    simp [Pseudo.expand]
  · rw [decodeCommand_assemble_line (by simp)]
    simp [Pseudo.expand]

end Machine
end Sys2Proof
end

section
/-! The cycle and the command port (30_encoding.md R80, R89, 20_memory.md R64): the clock edge written out, what an accepted
word adds to it, and the way of a word that is illegal, not ready or streamed. -/

namespace Sys2Proof.Machine

open Sys2Proof

/-! ## Acceptance -/

/-- No word is accepted in reset (30_encoding.md R80). -/
theorem cmdReady_of_reset {s : State} (hr : rstIn s = true) : cmdReady s = false := by simp [cmdReady, hr]

theorem cmdAccepted_of_reset {s : State} (hr : rstIn s = true) : cmdAccepted s = false := by
  simp [cmdAccepted, cmdReady_of_reset hr]

/-- Settles O6. -/
theorem stepRunsTheDecodedInstruction : Obligations.StepRunsTheDecodedInstruction := by
  intro s i hr hvalid hdec hready
  have hcmd : cmdReady s = true := by simp [cmdReady, hr, hdec, hready]
  have hacc : cmdAccepted s = true := by simp [cmdAccepted, hvalid, hcmd]
  refine ⟨hcmd, ?_⟩
  simp [step, hr, hacc, runWord, hdec]

/-- Settles O10: the cycle of a word that is not ready is the cycle's own work, as a NOP's is. -/
theorem wordNotReadyHasNoEffect : Obligations.WordNotReadyHasNoEffect := by
  intro s w h
  refine ⟨by simp [h], ?_⟩
  rw [step_presentWord, h, if_neg Bool.false_ne_true, step_presentWord_nop, advance_presentWord]

/-- Settles O12: whatever the reason the word is illegal for. -/
theorem illegalWordIsNopThatSetsErr : Obligations.IllegalWordIsNopThatSetsErr :=
  fun s _ _ herr => illegalWord_ready_and_sets_err herr s

/-! ## The stream -/

/-- A word that is not accepted stays the head of the stream (30_encoding.md R80). -/
theorem streamAfter_of_not_accepted {s : State} (h : cmdAccepted s = false) : streamAfter s = s.stream := by
  unfold streamAfter
  split
  · rfl
  · rfl
  · rw [h, if_neg Bool.false_ne_true]

/-- An accepted word of the stream is its head, and leaves it (30_encoding.md R80). -/
theorem stream_of_accepted {s : State} (hs : (currentInput s).host = .stream) (h : cmdAccepted s = true) :
    s.stream = cmdWord s :: streamAfter s := by
  have hvalid : s.stream ≠ [] := by simpa [cmdValid, hs] using (Bool.and_eq_true_iff.mp h).1
  obtain ⟨w, rest, hcons⟩ := List.exists_cons_of_ne_nil hvalid
  simp [cmdWord, streamAfter, hs, h, hcons]

/-- Settles O11. -/
theorem acceptedWordLeavesTheStream : Obligations.AcceptedWordLeavesTheStream := by
  intro s t hr hs h
  obtain ⟨-, -, -, hstream, -⟩ := step_parts hr h
  rw [hstream]
  exact ⟨fun hacc => ⟨cmdWord s, stream_of_accepted hs hacc, rfl⟩, streamAfter_of_not_accepted⟩

/-! ## No cycle stops -/

/-- The effect of a word is defined, legal or not (60_exceptions.md R266). -/
theorem runWord_next (w : CommandWord) (s : State) : ∃ t, runWord w s = .next t := by
  unfold runWord
  split
  next => exact ⟨_, rfl⟩
  next i _ =>
    obtain ⟨t, ht, -⟩ := exec_frame i s
    exact ⟨t, ht⟩

theorem step_next (s : State) : ∃ t, step s = .next t := by
  unfold step
  split
  next => exact ⟨_, rfl⟩
  next =>
    split
    next => exact runWord_next _ _
    next => exact ⟨_, rfl⟩

/-- Settles O15. -/
theorem everyCycleHasANextState : Obligations.EveryCycleHasANextState :=
  fun s => ⟨step_next s, cmdReady_of_nop⟩

/-! ## The cycle's own work -/

/-- The clock edge, with all that it writes. -/
theorem clockEdge_eq (s : State) : clockEdge s =
    { s with
      fe := clockFrontEnd (currentInput s).irIn s
      enc := { wave := tickWave s.enc.wave }
      evt := { s.evt with valid := false }
      script := s.script.tail
      stream := streamAfter s
      cycle := s.cycle + 1 } := rfl

/-- The tick counter counts a full prescaler, and the prescaler every cycle (41_decoder.md R161). -/
theorem countTick_spec (p : Params) (f : FrontEnd) :
    if f.presc = p.tickDiv - 1 then
      (countTick p f).presc = 0 ∧ (countTick p f).ticks.toNat = min 65535 (f.ticks.toNat + 1)
    else (countTick p f).presc = f.presc + 1 ∧ (countTick p f).ticks = f.ticks := by
  rw [countTick_presc, countTick_ticks]
  split <;> simp

/-- Settles O7: the cycle is its clock edge, at which the tick counter counts. -/
theorem cycleWithoutPinDispatch : Obligations.CycleWithoutPinDispatch := by
  intro s hp
  refine ⟨(countTick s.params s.fe).ticks, (countTick s.params s.fe).presc, countTick_spec s.params s.fe, ?_⟩
  rw [advance_of_no_dispatch hp, clockEdge_eq, clockFrontEnd_count hp]

/-- Settles O8: the cycle is a decoder invocation on top of its clock edge, at which the counters restart. -/
theorem cycleWithPinDispatch : Obligations.CycleWithPinDispatch := by
  intro s hp
  rw [advance_of_dispatch hp, clockEdge_eq, clockFrontEnd_dispatch hp]
  rfl

end Sys2Proof.Machine
end

section
/-! Reset (70_reset_and_hazards.md R290 to R292): what one reset cycle writes, what three of them leave, and the first cycle
after them. -/

namespace Sys2Proof.Machine

open Sys2Proof

theorem step_of_reset {s : State} (hr : rstIn s = true) : step s = .next (resetCycle s) := if_pos hr

/-- Settles O23: the one reset cycle, in which no word of the stream is accepted. -/
theorem resetCycleForcesTheFields : Obligations.ResetCycleForcesTheFields := by
  intro s hr
  refine ⟨cmdReady_of_reset hr, ?_⟩
  rw [step_of_reset hr, ← streamAfter_of_not_accepted (cmdAccepted_of_reset hr)]
  rfl

/-- A reset cycle leaves the reset state, but for the synchroniser and the outside world. -/
theorem resetCycle_eq_afterReset {s : State} {pin : Bool}
    (hfe : (resetCycle s).fe = FrontEnd.atReset pin pin pin) :
    resetCycle s = { State.afterReset s.cfg pin with
      script := (resetCycle s).script, stream := (resetCycle s).stream, cycle := (resetCycle s).cycle } := by
  rw [State.afterReset, ← hfe]
  rfl

/-- Settles O24: the last of the three cycles forces every field but the synchroniser, which follows the stable pin. -/
theorem threeResetCyclesReachTheResetState : Obligations.ThreeResetCyclesReachTheResetState := by
  intro σ pin hrun hin
  obtain ⟨hs1, hs2, hprev⟩ := hrun.stages_of_stable_pin fun k hk => (hin k hk).2
  have hlast : σ 3 = resetCycle (σ 2) :=
    Host.Outcome.next.inj ((hrun 2 (by omega)).symm.trans (step_of_reset (hin 2 (by omega)).1))
  have hcfg : (σ 2).cfg = (σ 0).cfg := (step_cfg (hrun 1 (by omega))).trans (step_cfg (hrun 0 (by omega)))
  constructor
  · simp [edgeDetected, hs2, hprev]
  · have hfe : (resetCycle (σ 2)).fe = FrontEnd.atReset pin pin pin := by
      rw [hlast, resetCycle_fe] at hs1 hs2 hprev
      rw [resetCycle_fe]
      exact congr (congr (congrArg FrontEnd.atReset hs1) hs2) hprev
    rw [hlast, ← hcfg]
    exact resetCycle_eq_afterReset hfe

/-! ## The first cycle after reset -/

/-- With the synchroniser settled and no edge pending nothing is dispatched (41_decoder.md R160). -/
theorem pinDispatch_afterReset (c : Config) (pin : Bool) : pinDispatch (State.afterReset c pin) = false := by
  simp [pinDispatch, edgeDetected, State.afterReset, FrontEnd.atReset]

/-- An idle encoder and no pin dispatch leave every word ready (30_encoding.md R89). -/
theorem ready_of_idle {s : State} (hfree : encoderFree s = true) (hp : pinDispatch s = false) (cw : CommandWord) :
    ready (decodeCommand cw) s = true := by
  cases h : decodeCommand cw with
  | error e => rfl
  | ok i => exact (ready_ok_iff (decodeCommand_isCommand h) s).mpr ⟨fun _ => hfree, fun _ => hp⟩

/-- Settles O25. -/
theorem firstCycleAfterReset : Obligations.FirstCycleAfterReset := fun c pin cw =>
  ⟨rfl, rfl, pinDispatch_afterReset c pin, rfl, rfl, rfl, rfl, rfl,
    ready_of_idle rfl (pinDispatch_afterReset c pin) cw⟩

end Sys2Proof.Machine
end

section
/-! What a cycle writes in the Decoder State and in the event record (10_state.md R31 to R36, R44, R48), from what one
decoder invocation and one operation write there; so sound states stay sound. -/

namespace Sys2Proof.Machine

open Sys2Proof

/-! ## Decoder State -/

/-- DS.REP after a dispatch, if there is one (42_interpreter.md R203, R204). -/
def repAfterAny (d : DecoderState) : Option Event → Byte
  | none => d.rep
  | some e => repAfter d e

/-- EVT after a dispatch, if there is one (42_interpreter.md R200). -/
def evtAfterAny (p : Params) (old : EventRecord) : Option Event → EventRecord
  | none => old
  | some e => eventRecord e.isRepeat e.word (lookupIndex p e.word) (executes p e)

/-- DS after an edge, if there is one, but for DS.REP (41_decoder.md R166). -/
def decoderAfter (p : Params) (d : DecoderState) : Option (Bool × Ticks) → DecoderState
  | none => d
  | some e => (decStep p e.1 e.2 d).1

theorem runDecoder_ds (lv : Bool) (k : Ticks) (s : State) : (runDecoder lv k s).ds =
    { decoderAfter s.params s.ds (some (lv, k)) with rep := repAfterAny s.ds (decStep s.params lv k s.ds).2 } := by
  cases h : (decStep s.params lv k s.ds).2 with
  | none =>
    have hrep : repAfterAny s.ds none = (decStep s.params lv k s.ds).1.rep := (decStep_rep ..).symm
    rw [runDecoder_of_no_event h, hrep]
    rfl
  | some e =>
    have hrep : repAfter (decStep s.params lv k s.ds).1 e = repAfter s.ds e := by simp [repAfter]
    rw [runDecoder_of_event h, interpret_ds, State.withDs_ds, hrep]
    rfl

theorem runDecoder_evt (lv : Bool) (k : Ticks) (s : State) :
    (runDecoder lv k s).evt = evtAfterAny s.params s.evt (decStep s.params lv k s.ds).2 := by
  cases h : (decStep s.params lv k s.ds).2 with
  | none => rw [runDecoder_of_no_event h]; rfl
  | some e => rw [runDecoder_of_event h, interpret_evt]; rfl

/-- The edge an operation gives the decoder (41_decoder.md R165). -/
def instrEdge : Instr → Option (Bool × Ticks)
  | .decEdge lv k => some (lv, k)
  | _ => none

/-- All an operation writes in DS and EVT: by its edge, and by its dispatch (10_state.md R48). -/
theorem exec_ds_evt {i : Instr} {s t : State} (h : exec i s = .next t) :
    t.ds = { decoderAfter s.params s.ds (instrEdge i) with rep := repAfterAny s.ds (instrEvent s.params s.ds i) } ∧
      t.evt = evtAfterAny s.params s.evt (instrEvent s.params s.ds i) := by
  cases i
  case decEdge lv k => cases h; exact ⟨runDecoder_ds lv k s, runDecoder_evt lv k s⟩
  case cmdReceive w => cases h; exact ⟨interpret_ds (.receive w) s, interpret_evt (.receive w) s⟩
  case cmdRepeat w => cases h; exact ⟨interpret_ds (.repeated w) s, interpret_evt (.repeated w) s⟩
  all_goals
    cases h
    exact ⟨rfl, rfl⟩

/-- The edge of a cycle without reset, if any: the pin's, or the accepted operation's (20_memory.md R65). -/
def cycleEdge (s : State) : Option (Bool × Ticks) :=
  if pinDispatch s then some (s.fe.s2, s.fe.ticks) else (acceptedInstr s).bind instrEdge

/-- All a cycle without reset writes in DS and EVT: by its one edge, and by its one dispatch (20_memory.md R65). -/
theorem step_ds_evt {s t : State} (hr : rstIn s = false) (h : step s = .next t) :
    t.ds = { decoderAfter s.params s.ds (cycleEdge s) with rep := repAfterAny s.ds (cycleEvent s) } ∧
      t.evt = evtAfterAny s.params { s.evt with valid := false } (cycleEvent s) := by
  cases hp : pinDispatch s with
  | true =>
    obtain ⟨hds, -, hevt⟩ := step_beside_dispatch hr hp h
    rw [hds, hevt, advance_of_dispatch hp, runDecoder_ds, runDecoder_evt, cycleEdge, cycleEvent, if_pos hp, if_pos hp]
    exact ⟨rfl, rfl⟩
  | false =>
    have hadv := advance_of_no_dispatch hp
    rcases step_cases h with ⟨hrst, -⟩ | ⟨-, i, hi, -, -, -, hexec⟩ | ⟨-, -, hi, rfl⟩ | ⟨-, -, hi, -, rfl⟩
    · simp [hr] at hrst
    · rw [hadv] at hexec
      have hedge : cycleEdge s = instrEdge i := by simp [cycleEdge, hp, hi]
      rw [hedge, cycleEvent_of_accepted hp hi]
      exact exec_ds_evt hexec
    all_goals
      have hedge : cycleEdge s = none := by simp [cycleEdge, hp, hi]
      have hevent : cycleEvent s = none := by simp [cycleEvent, hp, hi]
      rw [hedge, hevent, hadv]
      exact ⟨rfl, rfl⟩

theorem cycleEdge_eq_none {s : State} (hp : pinDispatch s = false)
    (hi : ∀ lv k, acceptedInstr s ≠ some (.decEdge lv k)) : cycleEdge s = none := by
  rw [cycleEdge, hp, if_neg Bool.false_ne_true, Option.bind_eq_none_iff]
  intro i hacc
  cases i
  case decEdge lv k => exact absurd hacc (hi lv k)
  all_goals rfl

/-- Settles O22: the decoder's own fields are written by the cycle's edge, DS.REP by its dispatch. -/
theorem decoderFieldsChangeOnlyByInvocation : Obligations.DecoderFieldsChangeOnlyByInvocation := by
  intro s t hr h
  obtain ⟨hds, -⟩ := step_ds_evt hr h
  constructor
  · intro hp hi
    rw [hds, cycleEdge_eq_none hp hi]
    rfl
  · intro he
    rw [hds, he]
    rfl

/-! ## The event record -/

/-- When the interpreter executes the action of a dispatch (42_interpreter.md R202 to R205). -/
theorem executes_iff (p : Params) (e : Event) : executes p e = true ↔
    lookupIndex p e.word ≠ 0 ∧ (e.isRepeat = true →
      ¬ (p.exLo.toNat ≤ (lookupIndex p e.word).toNat ∧ (lookupIndex p e.word).toNat ≤ p.exHi.toNat)) := by
  by_cases h0 : lookupIndex p e.word = 0
  · simp [executes_of_unrecognised h0, h0]
  · rw [← suppressed_iff h0, and_iff_right h0, executes, decide_eq_true h0]
    cases e.isRepeat <;> simp

/-- Settles O21: a cycle's dispatch writes all of EVT, and without one evt_valid falls. -/
theorem eventRecordShowsTheDispatch : Obligations.EventRecordShowsTheDispatch := by
  intro s t hr h
  obtain ⟨-, hevt⟩ := step_ds_evt hr h
  cases he : cycleEvent s with
  | none => rw [hevt, he]; rfl
  | some e =>
    rw [hevt, he]
    exact ⟨rfl, rfl, rfl, rfl, executes_iff s.params e⟩

/-! ## Sound states -/

/-- Soundness of the decoder does not ask for DS.REP. -/
theorem DecoderSound.withRep {p : Params} {d : DecoderState} (h : DecoderSound p d) (r : Byte) :
    DecoderSound p { d with rep := r } := h

theorem DecoderSound.of_disarmed {p : Params} {d : DecoderState} (h : d.armed = false) : DecoderSound p d := by
  intro harm
  simp [h] at harm

/-- The long-gap rule disarms where it writes (41_decoder.md R167). -/
theorem DecoderSound.longGapRule {p : Params} {d : DecoderState} (h : DecoderSound p d) (lv : Bool) (t : Ticks) :
    DecoderSound p (longGapRule p lv t d) := by
  unfold Machine.longGapRule
  split
  · exact .of_disarmed rfl
  · exact h

/-- What is true of an armed decoder between the header rule and the completion rule: its count is past the gap and at most
one past K_BITS, and no code is complete. -/
def ReceivingSound (p : Params) (d : DecoderState) : Prop :=
  d.armed = true → 1 ≤ d.pos.toNat ∧ d.pos.toNat ≤ p.kBits + 1 ∧ d.done = false

/-- The header rule arms at position 1, with DS.DONE cleared (41_decoder.md R168). -/
theorem DecoderSound.headerRule {p : Params} {d : DecoderState} (h : DecoderSound p d) (t : Ticks) :
    ReceivingSound p (headerRule p t d) := by
  by_cases hhdr : isHeader p t d = true
  · have hpos : d.pos = 1 := of_decide_eq_true (Bool.and_eq_true_iff.mp hhdr).1
    rw [headerRule_of_header hhdr]
    intro _
    simp [hpos]
  · rw [headerRule_of_no_header (by simpa using hhdr)]
    intro harm
    obtain ⟨hlow, hhigh, hdone⟩ := h harm
    exact ⟨by omega, hhigh, hdone⟩

theorem ReceivingSound.shiftRule {p : Params} {d : DecoderState} (h : ReceivingSound p d) (lv : Bool) (t : Ticks) :
    ReceivingSound p (shiftRule p lv t d) := by
  simpa only [ReceivingSound, shiftRule_armed, shiftRule_pos, shiftRule_done] using h

/-- A decoder past K_BITS is disarmed by the completion rule, any other one counts up to K_BITS + 1 at most, which fits a
byte (41_decoder.md R171, R172). -/
theorem ReceivingSound.complete {p : Params} {d : DecoderState} (h : ReceivingSound p d) (hk : p.kBits ≤ 254) :
    DecoderSound p (countRule (completionRule p d)) := by
  by_cases hc : isComplete p d = true
  · rw [completionRule_of_complete hc]
    exact .of_disarmed rfl
  · rw [completionRule_of_incomplete (by simpa using hc)]
    intro harm
    have hle : d.pos.toNat ≤ p.kBits := by
      by_contra hgt
      exact hc (isComplete_of_pos_gt harm (by omega))
    obtain ⟨hlow, -, hdone⟩ := h harm
    rw [countRule_pos, inc8_toNat]
    exact ⟨by omega, by omega, hdone⟩

/-- A decoder step keeps the decoder sound, through its rules in order (41_decoder.md R166). -/
theorem DecoderSound.decStep {p : Params} {d : DecoderState} (hp : p.WellFormed) (h : DecoderSound p d) (lv : Bool)
    (t : Ticks) : DecoderSound p (decStep p lv t d).1 := by
  obtain ⟨-, ⟨-, -, -, hk, -⟩, -⟩ := hp
  exact (((h.longGapRule lv t).headerRule t).shiftRule lv t).complete hk

theorem DecoderSound.decoderAfter {p : Params} {d : DecoderState} (hp : p.WellFormed) (h : DecoderSound p d)
    (e : Option (Bool × Ticks)) : DecoderSound p (decoderAfter p d e) := by
  cases e with
  | none => exact h
  | some e => exact h.decStep hp e.1 e.2

/-- The front end's clock edge keeps it sound: the prescaler restarts or stays below TICK_DIV, and without the mask nothing
pends (41_decoder.md R161 to R163). -/
theorem FrontEndSound.clockFrontEnd {s : State} (h : FrontEndSound s.params s.fe) (pin : Bool) :
    FrontEndSound s.params (clockFrontEnd pin s) := by
  obtain ⟨hpresc, hpend⟩ := h
  cases hp : pinDispatch s with
  | true =>
    rw [clockFrontEnd_dispatch hp]
    exact ⟨by simp; omega, fun _ => rfl⟩
  | false =>
    rw [clockFrontEnd_count hp]
    exact ⟨countTick_presc_lt hpresc, fun hnone => by simp [hpend hnone, captureMasked_of_none hnone]⟩

/-- The record of a dispatch names a looked-up index, and 0 is never executed (42_interpreter.md R201, R202). -/
theorem EventSound.evtAfterAny {c : Config} {old : EventRecord} (h : EventSound c.val old) (e : Option Event) :
    EventSound c.val (evtAfterAny c.val old e) := by
  cases e with
  | none => exact h
  | some e => exact ⟨lookupIndex_le c e.word, fun hex => executes_index (p := c.val) (e := e) hex⟩

/-- A cycle without reset keeps every part sound. -/
theorem Sound.step {s t : State} (h : Sound s) (hr : rstIn s = false) (ht : step s = .next t) : Sound t := by
  have hparams : t.params = s.params := congrArg Subtype.val (step_cfg ht)
  obtain ⟨-, hfe, -, -, -, htick, hstart⟩ := step_parts hr ht
  obtain ⟨hds, hevt⟩ := step_ds_evt hr ht
  refine ⟨?_, ?_, ?_, ?_⟩
  · cases hw : waveStarted s with
    | true => exact (hstart hw).sound
    | false =>
      rw [htick hw]
      exact waveSound_tickWave h.wave
  · rw [hparams, hds]
    exact (h.decoder.decoderAfter s.cfg.property _).withRep _
  · rw [hparams, hfe]
    exact h.frontEnd.clockFrontEnd _
  · have hfall : EventSound s.cfg.val { s.evt with valid := false } := h.event
    rw [hparams, hevt]
    exact hfall.evtAfterAny _

/-- A block with every part but the synchroniser at its reset value is sound (10_state.md R50). -/
theorem sound_of_reset_values {s : State} {s1 s2 prev : Bool} (henc : s.enc = Encoder.atReset)
    (hds : s.ds = DecoderState.atReset) (hfe : s.fe = FrontEnd.atReset s1 s2 prev) (hevt : s.evt = EventRecord.atReset) :
    Sound s := by
  obtain ⟨⟨-, -, -, -, -, -, hdiv, -⟩, -⟩ := s.cfg.property
  refine ⟨?_, ?_, ?_, ?_⟩
  · rw [henc]
    exact Unstarted.sound (by simp [Unstarted, Encoder.atReset])
  · rw [hds]
    exact .of_disarmed rfl
  · rw [hfe]
    exact ⟨hdiv, fun _ => rfl⟩
  · rw [hevt]
    exact ⟨Nat.zero_le _, by simp [EventRecord.atReset]⟩

/-- Settles O18. -/
theorem resetStateIsSound : Obligations.ResetStateIsSound :=
  ⟨sound_of_reset_values rfl rfl rfl rfl, fun _ _ => sound_of_reset_values rfl rfl rfl rfl⟩

/-- Settles O17: a reset cycle brings the reset values, and any other cycle keeps each part sound. -/
theorem everyCycleKeepsTheStateSound : Obligations.EveryCycleKeepsTheStateSound := by
  intro s t h ht
  cases hr : rstIn s with
  | true =>
    obtain rfl : resetCycle s = t := Host.Outcome.next.inj ((step_of_reset hr).symm.trans ht)
    exact sound_of_reset_values rfl rfl rfl rfl
  | false => exact h.step hr ht

end Sys2Proof.Machine
end

section
/-! The interpreter's two paths (42_interpreter.md R202 to R213): a dispatch as the action of its index between the writes of
DS.REP and EVT, the actions themselves, and so what writes each Render State field in a cycle. -/

namespace Sys2Proof.Machine

open Sys2Proof

/-! ## Actions -/

/-- Settles O50. -/
theorem nopPowerAndSelectActions : Obligations.NopPowerAndSelectActions := by
  intro mode color km kc s
  refine ⟨rfl, rfl, ?_⟩
  cases km <;> cases kc <;> rfl

/-- Settles O51: each adjustment adds or takes off DS.REP, clamped. -/
theorem adjustmentsStepByRepAndSaturate : Obligations.AdjustmentsStepByRepAndSaturate := fun s =>
  ⟨⟨_, satAdd8_toNat s.rs.bright s.ds.rep, rfl⟩, ⟨_, satSub8_toNat s.rs.bright s.ds.rep, rfl⟩,
    ⟨_, satAdd8_toNat s.rs.speed s.ds.rep, rfl⟩, ⟨_, satSub8_toNat s.rs.speed s.ds.rep, rfl⟩⟩

/-! ## A dispatch -/

/-- A looked-up index other than 0 has an action, and executing the index is that action's meaning (42_interpreter.md R202). -/
theorem executeIndex_of_lookup {s u : State} {w : CodeWord} (h0 : lookupIndex s.params w ≠ 0) (hu : u.cfg = s.cfg) :
    ∃ d a, s.params.action[(lookupIndex s.params w).toNat - 1]? = some d ∧ decodeDescriptor d = .ok a ∧
      exec a u = .next (executeIndex (lookupIndex s.params w) u) := by
  obtain ⟨d, a, hd, ha, hact⟩ := actionAt_of_index s.cfg _ h0 (lookupIndex_le s.cfg w)
  have hparams : u.params = s.params := congrArg Subtype.val hu
  refine ⟨d, a, hd, ha, ?_⟩
  rw [exec_action (decodeDescriptor_isAction ha), executeIndex, hparams, hact]

/-- Both paths write DS.REP, run the index where it is executed, and write EVT (42_interpreter.md R203 to R205). -/
theorem interpret_spec (e : Event) (s : State) : interpret e s =
    (if executes s.params e then executeIndex (lookupIndex s.params e.word) (s.withRep (repAfter s.ds e))
      else s.withRep (repAfter s.ds e)).withEvt
        (eventRecord e.isRepeat e.word (lookupIndex s.params e.word) (executes s.params e)) := by
  cases e with
  | receive w =>
    have hex : executes s.params (.receive w) = decide (lookupIndex s.params w ≠ 0) := Bool.and_true _
    rw [hex]
    by_cases h0 : lookupIndex s.params w = 0
    · rw [if_neg (by simp [h0])]
      simp only [interpret, onReceive, Event.word, h0]
      rfl
    · rw [if_pos (by simpa using h0)]
      rfl
  | repeated w =>
    by_cases hs : suppressed s.params (lookupIndex s.params w) = true
    · rw [executes_of_suppressed hs, if_neg Bool.false_ne_true, interpret, onRepeat, if_pos hs]
      rfl
    · have hex : executes s.params (.repeated w) = decide (lookupIndex s.params w ≠ 0) := by
        show (decide (lookupIndex s.params w ≠ 0) && !suppressed s.params (lookupIndex s.params w)) = _
        rw [Bool.eq_false_iff.mpr hs]
        exact Bool.and_true _
      rw [hex, interpret, onRepeat, if_neg hs]
      by_cases h0 : lookupIndex s.params w = 0
      · rw [if_neg (by simp [h0])]
        simp only [Event.word, h0]
        rfl
      · rw [if_pos (by simpa using h0)]
        rfl

/-- An executed dispatch is the meaning of its index's action, run with the new DS.REP, and then EVT. -/
theorem interpret_of_executes {e : Event} {s : State} (h : executes s.params e = true) : ∃ d a t,
    s.params.action[(lookupIndex s.params e.word).toNat - 1]? = some d ∧ decodeDescriptor d = .ok a ∧
      exec a (s.withRep (repAfter s.ds e)) = .next t ∧
      interpret e s = t.withEvt (eventRecord e.isRepeat e.word (lookupIndex s.params e.word) true) := by
  obtain ⟨d, a, hd, ha, hexec⟩ := executeIndex_of_lookup (u := s.withRep (repAfter s.ds e)) (executes_index h) rfl
  exact ⟨d, a, _, hd, ha, hexec, by rw [interpret_spec, h, if_pos rfl]⟩

/-- A dispatch that is not executed writes DS.REP and EVT and nothing else. -/
theorem interpret_of_not_executes {e : Event} {s : State} (h : executes s.params e = false) : interpret e s =
    (s.withRep (repAfter s.ds e)).withEvt (eventRecord e.isRepeat e.word (lookupIndex s.params e.word) false) := by
  rw [interpret_spec, h, if_neg Bool.false_ne_true]

/-- An unrecognised code is recorded with index 0, as not executed. -/
theorem interpret_of_unrecognised {e : Event} {s : State} (h : lookupIndex s.params e.word = 0) : interpret e s =
    (s.withRep (repAfter s.ds e)).withEvt (eventRecord e.isRepeat e.word 0 false) := by
  rw [interpret_of_not_executes (executes_of_unrecognised h), h]

/-- Settles O48: the receive path sets DS.REP to 0 and executes every recognised index. -/
theorem receiveExecutesTheActionOnce : Obligations.ReceiveExecutesTheActionOnce := by
  intro w s
  constructor
  · intro h0
    exact congrArg Host.Outcome.next (interpret_of_unrecognised (e := .receive w) h0)
  · intro h0
    have hex : executes s.params (.receive w) = true :=
      (executes_iff s.params (.receive w)).mpr ⟨h0, by simp [Event.isRepeat]⟩
    obtain ⟨d, a, t, hd, ha, ht, hint⟩ := interpret_of_executes hex
    exact ⟨d, a, t, hd, ha, ht, congrArg Host.Outcome.next hint⟩

/-- Settles O49: the repeat path counts DS.REP up and executes a recognised index outside the excluded range. -/
theorem repeatExecutesUnlessExcluded : Obligations.RepeatExecutesUnlessExcluded := by
  intro w s
  have hiff := executes_iff s.params (.repeated w)
  refine ⟨satInc8 s.ds.rep, satInc8_toNat s.ds.rep, fun h0 => ?_, fun h0 hlo hhi => ?_, fun h0 hout => ?_⟩
  · exact congrArg Host.Outcome.next (interpret_of_unrecognised (e := .repeated w) h0)
  · have hex : executes s.params (.repeated w) = false := executes_of_suppressed ((suppressed_iff h0).mpr ⟨hlo, hhi⟩)
    exact congrArg Host.Outcome.next (interpret_of_not_executes hex)
  · obtain ⟨d, a, t, hd, ha, ht, hint⟩ := interpret_of_executes (hiff.mpr ⟨h0, fun _ => hout⟩)
    exact ⟨d, a, t, hd, ha, ht, congrArg Host.Outcome.next hint⟩

/-! ## What an action changes in the Render State -/

/-- A_POWER alone changes RS.RUN, each pair of adjustments its field, and A_SELECT alone the mode and color slots, of which
the previous ones take what was current, and RS.CD (10_state.md R48). -/
theorem runAction_changes (a : Instr) (s : State) :
    ((runAction a s).rs.run ≠ s.rs.run → a = .aPower) ∧
    ((runAction a s).rs.bright ≠ s.rs.bright → a = .aBrightUp ∨ a = .aBrightDown) ∧
    ((runAction a s).rs.speed ≠ s.rs.speed → a = .aSpeedUp ∨ a = .aSpeedDown) ∧
    ((runAction a s).rs.mode ≠ s.rs.mode ∨ (runAction a s).rs.color ≠ s.rs.color ∨
      (runAction a s).rs.pmode ≠ s.rs.pmode ∨ (runAction a s).rs.pcolor ≠ s.rs.pcolor ∨
      (runAction a s).rs.cd ≠ s.rs.cd → ∃ km kc mode color, a = .aSelect km kc mode color) ∧
    ((∃ km kc mode color, a = .aSelect km kc mode color) →
      (runAction a s).rs.pmode = s.rs.mode ∧ (runAction a s).rs.pcolor = s.rs.color ∧ (runAction a s).rs.cd = 255) := by
  cases a <;>
    simp [runAction, togglePower, raiseBrightness, lowerBrightness, raiseSpeed, lowerSpeed, selectMode]

/-- A cycle's dispatch that is executed leaves in RS what its action does, run from RS and the new DS.REP alone. -/
theorem step_rs_of_executes {s t : State} {e : Event} (hr : rstIn s = false) (h : step s = .next t)
    (he : cycleEvent s = some e) (hex : executes s.params e = true) :
    ∃ d a, s.params.action[(lookupIndex s.params e.word).toNat - 1]? = some d ∧ decodeDescriptor d = .ok a ∧
      t.rs = (runAction a (s.withRep (repAfter s.ds e))).rs := by
  obtain ⟨-, v, hcfg, hrs, hrep, ht, -⟩ := step_interprets hr h he
  have hparams : v.params = s.params := congrArg Subtype.val hcfg
  obtain ⟨d, a, u, hd, ha, hu, hint⟩ := interpret_of_executes (s := v) (e := e) (by rwa [hparams])
  rw [hparams] at hd
  rw [exec_action (decodeDescriptor_isAction ha)] at hu
  cases hu
  refine ⟨d, a, hd, ha, ?_⟩
  rw [ht, hint]
  exact runAction_rs_congr a hrs (by simp [repAfter, hrep])

theorem step_rs_of_not_executes {s t : State} {e : Event} (hr : rstIn s = false) (h : step s = .next t)
    (he : cycleEvent s = some e) (hex : executes s.params e = false) : t.rs = s.rs := by
  obtain ⟨-, v, hcfg, hrs, -, ht, -⟩ := step_interprets hr h he
  have hparams : v.params = s.params := congrArg Subtype.val hcfg
  rw [ht, interpret_of_not_executes (by rwa [hparams])]
  exact hrs

/-- DS.REP after a dispatch, as a number (42_interpreter.md R203, R204). -/
theorem repAfter_toNat (d : DecoderState) (e : Event) :
    (repAfter d e).toNat = if e.isRepeat = true then min 255 (d.rep.toNat + 1) else 0 := by
  unfold repAfter
  split
  · exact satInc8_toNat d.rep
  · rfl

/-- Settles O20: without a dispatch only FRAME_TICK writes RS, and with one only the action that it executes, if any. -/
theorem renderStateWriters : Obligations.RenderStateWriters := by
  intro s t hr h
  cases he : cycleEvent s with
  | none =>
    have hrs := step_rs_of_no_event hr h he
    refine ⟨fun hi => ⟨satSub8 s.rs.cd s.params.cdStep, satSub8_toNat _ _, ?_⟩, fun hi => ?_⟩
    · rw [hrs, if_pos hi]
      rfl
    · rw [hrs, if_neg hi]
  | some e =>
    obtain ⟨hnoTick, -⟩ := step_interprets hr h he
    have hiff := executes_iff s.params e
    refine ⟨hnoTick, fun hnot => ?_, fun h0 hin => ?_⟩
    · refine step_rs_of_not_executes hr h he (Bool.eq_false_iff.mpr fun hex => ?_)
      obtain ⟨h0, hout⟩ := hiff.mp hex
      rcases hnot with h | ⟨hrep, hrange⟩
      · exact h0 h
      · exact hout hrep hrange
    · obtain ⟨d, a, hd, ha, hrs⟩ := step_rs_of_executes hr h he (hiff.mpr ⟨h0, fun hrep hrange => hin ⟨hrep, hrange⟩⟩)
      refine ⟨repAfter s.ds e, d, a, runAction a (s.withRep (repAfter s.ds e)), repAfter_toNat s.ds e, hd, ha,
        exec_action (decodeDescriptor_isAction ha) _, hrs, ?_⟩
      rw [hrs]
      exact runAction_changes a (s.withRep (repAfter s.ds e))

/-! ## The decoder's dispatches -/

/-- Settles O40: the pseudocode is the decoder step, and its dispatch runs on the state that the step left. -/
theorem decEdgeRunsOneDecoderStep : Obligations.DecEdgeRunsOneDecoderStep := by
  intro lv t s
  obtain ⟨-, hfe, -⟩ := runDecoder_operationFrame lv t s
  refine ⟨runDecoder lv t s, rfl, hfe, runDecoder_enc lv t s, ?_⟩
  rw [← decoderStepIsThePseudocode s.params lv t s.ds]
  unfold runDecoder
  generalize decStep s.params lv t s.ds = r
  obtain ⟨d, _ | ⟨w⟩ | ⟨w⟩⟩ := r <;> rfl

/-- Only step (4) dispatches a Receive (41_decoder.md R169, R171). -/
theorem completionEvent_of_receive {p : Params} {lv : Bool} {t : Ticks} {d : DecoderState} {w : CodeWord}
    (h : (decStep p lv t d).2 = some (.receive w)) :
    completionEvent p (shiftRule p lv t (headerRule p t (longGapRule p lv t d))) = some (.receive w) := by
  rcases Option.or_eq_some_iff.mp h with hc | ⟨-, hrep⟩
  · exact hc
  · simp [repeatRule] at hrep

/-- At step (4) a decoder past K_BITS was armed before the invocation: a long gap would have disarmed it, and a header is
seen at position 1 only (41_decoder.md R167, R168). -/
theorem armed_of_isComplete {p : Params} {lv : Bool} {t : Ticks} {d : DecoderState} (hk : 1 ≤ p.kBits)
    (h : isComplete p (shiftRule p lv t (headerRule p t (longGapRule p lv t d))) = true) :
    d.armed = true ∧ longGapRule p lv t d = d ∧ p.kBits < d.pos.toNat := by
  have hand : (headerRule p t (longGapRule p lv t d)).armed = true ∧ p.kBits < (longGapRule p lv t d).pos.toNat := by
    simpa [isComplete] using h
  obtain ⟨harm, hpos⟩ := hand
  have hone : (longGapRule p lv t d).pos ≠ 1 := by
    intro hone
    rw [hone] at hpos
    exact absurd hpos (Nat.not_lt.mpr hk)
  rw [headerRule_of_no_header (isHeader_of_pos_ne_one hone)] at harm
  cases hgap : isLongGap p lv t with
  | true => simp [longGapRule_of_gap hgap] at harm
  | false =>
    rw [longGapRule_of_no_gap hgap] at harm hpos ⊢
    exact ⟨harm, rfl, hpos⟩

/-- Settles O45: the invocation completes, so it latches the code and disarms, and was armed before. -/
theorem completionFiresOncePerFrame : Obligations.CompletionFiresOncePerFrame := by
  rintro p lv t d w ⟨-, ⟨-, -, hk, -⟩, -⟩ h
  have hevent := completionEvent_of_receive h
  have hc : isComplete p (shiftRule p lv t (headerRule p t (longGapRule p lv t d))) = true := by
    by_contra hnot
    rw [completionEvent_of_incomplete (by simpa using hnot)] at hevent
    cases hevent
  obtain ⟨harm, -, hpos⟩ := armed_of_isComplete hk hc
  rw [completionEvent_of_complete hc] at hevent
  cases hevent
  refine ⟨harm, hpos, ?_⟩
  rw [decStep, completionRule_of_complete hc]
  exact ⟨rfl, rfl, rfl, rfl⟩

/-- Settles O44: a disarmed decoder that sees no header and no gap counts, and its dispatch is the repeat rule's. -/
theorem repeatMarkerNeedsACompletedCode : Obligations.RepeatMarkerNeedsACompletedCode := by
  intro p lv t d hpos hdis hlo hhi hgap
  have hnogap : isLongGap p lv t = false := by simpa [isLongGap, exceeds] using hgap
  have hnohdr : exceeds t p.tHdrHi = false := by simpa [exceeds] using hhi
  have hmarker : isRepeatMarker p t d = true := by simp [isRepeatMarker, hpos, hnohdr, (exceeds_iff _ _).mpr hlo]
  rw [decStep_of_disarmed hnogap (by simp [isHeader, hnohdr]) hdis]
  refine ⟨?_, by simp [repeatRule, hmarker]⟩
  simp [countRule, inc8, hpos]

end Sys2Proof.Machine
end

section
/-! The encoder and the render step (40_encoder.md R129, R130, 43_render.md R240 to R246): what starts and drives a waveform,
the frame of a FRAME_TICK, and the color of a pixel. -/

namespace Sys2Proof.Machine

open Sys2Proof

/-! ## Driving -/

theorem openWindow_ne_nil {w : List Segment} (h : w ≠ []) : openWindow w ≠ [] := by
  cases w with
  | nil => exact absurd rfl h
  | cons g w => exact List.cons_ne_nil _ _

theorem pixelWave_ne_nil (p : Params) (c : Color) (s : Byte) : pixelWave p c s ≠ [] :=
  openWindow_ne_nil (List.append_ne_nil_of_right_ne_nil _ (byteWave_ne_nil p (white c) s))

theorem frameWave_ne_nil (p : Params) (px : List Color) (s : Byte) : frameWave p px s ≠ [] :=
  List.append_ne_nil_of_right_ne_nil _ (List.cons_ne_nil _ _)

/-- A started waveform is never empty (40_encoder.md R124 to R127). -/
theorem exec_startsWave_ne_nil {i : Instr} {s t : State} (hi : startsWave i = true) (h : exec i s = .next t) :
    t.enc.wave ≠ [] := by
  cases i <;> simp only [startsWave, Bool.false_eq_true] at hi <;> cases h
  case sendByte b v => exact openWindow_ne_nil (byteWave_ne_nil s.params b v)
  case sendPixel c v => exact pixelWave_ne_nil s.params c v
  case sendFrame c v => exact frameWave_ne_nil _ _ _
  case sendReset => exact List.cons_ne_nil _ _
  case frameTick => exact frameWave_ne_nil _ _ _

theorem tickWave_of_last {g : Segment} (h : g.cycles ≤ 1) (rest : List Segment) : tickWave (g :: rest) = rest := if_pos h

theorem tickWave_of_more {g : Segment} (h : 1 < g.cycles) (rest : List Segment) :
    tickWave (g :: rest) = { level := g.level, cycles := g.cycles - 1, tag := g.tag, first := false } :: rest :=
  if_neg (Nat.not_le.mpr h)

/-- A started waveform comes from an accepted operation that starts one. -/
theorem waveStarted_iff (s : State) :
    waveStarted s = true ↔ ∃ i, acceptedInstr s = some i ∧ startsWave i = true := by
  simp [waveStarted, Option.any_eq_true]

/-- Settles O32: a started waveform has not been driven, and any other cycle takes one clock edge. -/
theorem encoderDrivesTheHeadSegment : Obligations.EncoderDrivesTheHeadSegment := by
  intro s t hr h
  obtain ⟨-, -, -, -, -, htick, hfresh⟩ := step_parts hr h
  refine ⟨fun hw => ⟨?_, hfresh hw⟩, fun hw => ?_⟩
  · obtain ⟨i, hi, hstarts⟩ := (waveStarted_iff s).mp hw
    exact exec_startsWave_ne_nil hstarts (exec_advance_of_accepted hr hi h)
  · rw [htick hw]
    refine ⟨fun hnil => by rw [hnil]; rfl, fun g rest hwave => ?_⟩
    rw [hwave]
    exact ⟨fun hlast => tickWave_of_last hlast rest, fun hmore => tickWave_of_more hmore rest⟩

/-! ## Starting -/

theorem isCommand_of_startsWave {i : Instr} (h : startsWave i = true) : i.isCommand = true := by
  cases i with
  | sendByte | sendPixel | sendFrame | sendReset | frameTick => rfl
  | _ => cases h

/-- What starts a waveform is ready only while at most 1 cycle remains (40_encoder.md R130). -/
theorem waveLen_le_of_ready {i : Instr} {s : State} (hi : startsWave i = true) (h : ready (.ok i) s = true) :
    waveLen s.enc.wave ≤ 1 :=
  of_decide_eq_true (((ready_ok_iff (isCommand_of_startsWave hi) s).mp h).1 hi)

/-- Settles O33: readiness keeps a start off a running waveform, and every other cycle takes one cycle off it. -/
theorem transmissionIsNeverCut : Obligations.TransmissionIsNeverCut := by
  intro s t hs hr h
  refine ⟨fun hw => ?_, fun i hdec hi hlong => ?_, fun hw => ?_⟩
  · obtain ⟨i, hi, hstarts⟩ := (waveStarted_iff s).mp hw
    exact waveLen_le_of_ready hstarts (ready_of_accepted hi)
  · have hready : ready (.ok i) s = false :=
      Bool.eq_false_iff.mpr fun hready => absurd (waveLen_le_of_ready hi hready) (Nat.not_le.mpr hlong)
    rw [cmdReady, hdec, hready, Bool.and_false]
  · obtain ⟨-, -, -, -, -, htick, -⟩ := step_parts hr h
    rw [htick hw]
    exact ⟨waveLen_tickWave hs.wave, levelAt_tickWave hs.wave⟩

/-! ## Frames -/

/-- A frame is its pixels' windows and then the reset code (40_encoder.md R127). -/
theorem frameWave_eq (p : Params) (px : List Color) (s : Byte) :
    frameWave p px s = (px.map (fun c => pixelWave p c s)).flatten ++
      [{ level := false, cycles := p.tRst, tag := .none, first := true }] := by
  rw [frameWave, pixelsWave_eq]
  rfl

/-- Settles O29. -/
theorem sendFrameAndSendReset : Obligations.SendFrameAndSendReset := by
  intro c s st
  refine ⟨_, rfl, ?_, rfl⟩
  rw [← List.map_replicate (f := fun c => pixelWave st.params c s), ← frameWave_eq]
  rfl

/-- Settles O57: the frame is of the pixels in index order, and the countdown goes down by CD_STEP, clamped. -/
theorem frameTickSendsTheFrame : Obligations.FrameTickSendsTheFrame := by
  intro s
  refine ⟨satSub8 s.rs.cd s.params.cdStep, _, _, satSub8_toNat _ _, rfl, rfl, ?_⟩
  have hpixels : (List.range s.params.nPix).map (fun i => pixelWave s.params (pixelColor s.params s.rs i) s.rs.bright) =
      (framePixels s.params s.rs).map (fun c => pixelWave s.params c s.rs.bright) := by
    rw [framePixels, List.map_map]
    rfl
  rw [hpixels, ← frameWave_eq]
  rfl

/-! ## The color of a pixel -/

@[simp] theorem red_packColor (r g b w : Byte) : red (packColor r g b w) = r := by
  refine BitVec.eq_of_getLsbD_eq fun i hi => ?_
  simp only [red, packColor, BitVec.getLsbD_extractLsb', hi]
  grind

@[simp] theorem green_packColor (r g b w : Byte) : green (packColor r g b w) = g := by
  refine BitVec.eq_of_getLsbD_eq fun i hi => ?_
  simp only [green, packColor, BitVec.getLsbD_extractLsb', hi]
  grind

@[simp] theorem blue_packColor (r g b w : Byte) : blue (packColor r g b w) = b := by
  refine BitVec.eq_of_getLsbD_eq fun i hi => ?_
  simp only [blue, packColor, BitVec.getLsbD_extractLsb', hi]
  grind

@[simp] theorem white_packColor (r g b w : Byte) : white (packColor r g b w) = w := by
  refine BitVec.eq_of_getLsbD_eq fun i hi => ?_
  simp only [white, packColor, BitVec.getLsbD_extractLsb', hi]
  grind

/-- The blend of two colors is that of each channel, as an exact number (43_render.md R243). -/
theorem channelAt_blend (p q : Color) (cd : Byte) {lo : Nat} (hlo : lo ∈ [24, 16, 8, 0]) :
    channelAt (blend p q cd) lo = (channelAt p lo * cd.toNat + channelAt q lo * (255 - cd.toNat)) / 255 := by
  have hred : red (blend p q cd) = blendChannel (red p) (red q) cd := red_packColor ..
  have hgreen : green (blend p q cd) = blendChannel (green p) (green q) cd := green_packColor ..
  have hblue : blue (blend p q cd) = blendChannel (blue p) (blue q) cd := blue_packColor ..
  have hwhite : white (blend p q cd) = blendChannel (white p) (white q) cd := white_packColor ..
  simp only [List.mem_cons, List.not_mem_nil, or_false] at hlo
  simp only [← extractLsb'_toNat_eq_channelAt]
  rcases hlo with rfl | rfl | rfl | rfl
  · exact (congrArg BitVec.toNat hred).trans (blendChannel_toNat _ _ cd)
  · exact (congrArg BitVec.toNat hgreen).trans (blendChannel_toNat _ _ cd)
  · exact (congrArg BitVec.toNat hblue).trans (blendChannel_toNat _ _ cd)
  · exact (congrArg BitVec.toNat hwhite).trans (blendChannel_toNat _ _ cd)

/-- While the countdown runs a pixel is blended (43_render.md R242). -/
theorem pixelColor_of_cd_ne_zero {p : Params} {rs : RenderState} (hrun : rs.run = true) (hcd : rs.cd ≠ 0) (i : Nat) :
    pixelColor p rs i = blend (patternColor p rs.pmode rs.pcolor i) (patternColor p rs.mode rs.color i) rs.cd := by
  rw [pixelColor, if_neg (by simp [hrun]), if_neg hcd]

/-- With no exceptions the pattern is uniform (43_render.md R244, log 3). -/
theorem patternColor_of_uniform {p : Params} (h : p.pattern = []) (m : ModeTag) (c : Color) (i : Nat) :
    patternColor p m c i = c := by simp [patternColor, h]

/-- Settles O58. -/
theorem pixelColorFromTheSnapshot : Obligations.PixelColorFromTheSnapshot := by
  intro p rs i
  refine ⟨fun hoff => if_pos hoff, fun hrun hcd => pixelColor_of_cd_zero hrun hcd i, fun hrun hcd lo hlo => ?_,
    fun hpat m c => patternColor_of_uniform hpat m c i⟩
  rw [pixelColor_of_cd_ne_zero hrun hcd, channelAt_blend _ _ _ hlo]

/-! ## The blend as a mean -/

/-- At the two weights that add up to 255 a sum of equal numbers is 255 times the number. -/
theorem weights_add (x : Nat) (cd : Byte) : x * cd.toNat + x * (255 - cd.toNat) = 255 * x := by
  rw [← Nat.mul_add, Nat.add_sub_cancel' (byte_toNat_le cd), Nat.mul_comm]

/-- A blend lies between any two numbers that its colors lie between. -/
theorem blendChannel_between {a b : Byte} (cd : Byte) {lo hi : Nat} (hla : lo ≤ a.toNat) (hlb : lo ≤ b.toNat)
    (hah : a.toNat ≤ hi) (hbh : b.toNat ≤ hi) :
    lo ≤ (blendChannel a b cd).toNat ∧ (blendChannel a b cd).toNat ≤ hi := by
  have hlow : 255 * lo ≤ a.toNat * cd.toNat + b.toNat * (255 - cd.toNat) := by
    rw [← weights_add lo cd]
    gcongr
  have hhigh : a.toNat * cd.toNat + b.toNat * (255 - cd.toNat) ≤ 255 * hi := by
    rw [← weights_add hi cd]
    gcongr
  rw [blendChannel_toNat]
  omega

/-- Two blends differ in the weight `k` that has moved from one color to the other. -/
theorem weightedSum_move {c1 c2 : Byte} (hc : c1.toNat ≤ c2.toNat) (x y : Nat) : ∃ k m : Nat,
    x * c1.toNat + y * (255 - c1.toNat) = m + y * k ∧ x * c2.toNat + y * (255 - c2.toNat) = m + x * k := by
  obtain ⟨k, hk⟩ := Nat.exists_eq_add_of_le hc
  have hle := byte_toNat_le c2
  have hrest : 255 - c1.toNat = 255 - c2.toNat + k := by omega
  refine ⟨k, x * c1.toNat + y * (255 - c2.toNat), ?_, ?_⟩
  · rw [hrest, Nat.mul_add, Nat.add_assoc]
  · rw [hk, Nat.mul_add, Nat.add_right_comm]

/-- Settles O59: the blend is a mean of its colors, rounded down, with the weights of R243. -/
theorem blendMovesFromPreviousToCurrent : Obligations.BlendMovesFromPreviousToCurrent := by
  intro a b
  refine ⟨byte_ext ?_, fun cd => ?_, fun c1 c2 hc => ?_⟩
  · simp
  · exact blendChannel_between cd (Nat.min_le_left ..) (Nat.min_le_right ..) (Nat.le_max_left ..) (Nat.le_max_right ..)
  · obtain ⟨k, m, h1, h2⟩ := weightedSum_move hc a.toNat b.toNat
    rw [blendChannel_toNat, blendChannel_toNat, h1, h2]
    exact ⟨fun hab => Nat.div_le_div_right (Nat.add_le_add_left (Nat.mul_le_mul_right k hab) m),
      fun hba => Nat.div_le_div_right (Nat.add_le_add_left (Nat.mul_le_mul_right k hba) m)⟩

end Sys2Proof.Machine
end

section
/-! The capture front end over cycles (41_decoder.md R161 to R164): the masked cycles, the tick counter since a dispatch, and
what the anomaly view shows of lost and mistimed edges. -/

namespace Sys2Proof.Machine

open Sys2Proof

/-! ## Masked cycles -/

theorem Segment.masks_iff (g : Segment) :
    g.masks = true ↔ g.tag = .pxIn ∨ (g.tag = .pxStart ∧ g.first = false) := by
  cases h : g.tag <;> simp [Segment.masks, h]

theorem captureMasked_iff (s : State) : captureMasked s = true ↔ s.params.captureMask = .perPixel ∧
    ∃ g rest, s.enc.wave = g :: rest ∧ (g.tag = .pxIn ∨ (g.tag = .pxStart ∧ g.first = false)) := by
  cases h : s.enc.wave with
  | nil => simp [captureMasked, h]
  | cons g rest => simp [captureMasked, h, Segment.masks_iff, and_comm]

/-- Settles O36: a masked cycle dispatches nothing, so its clock edge counts and its edge pends. -/
theorem maskedCyclePendsTheEdge : Obligations.MaskedCyclePendsTheEdge := by
  intro s t hr h
  refine ⟨captureMasked_iff s, fun hmask => ?_⟩
  have hp := pinDispatch_of_masked hmask
  obtain ⟨-, hfe, -⟩ := step_parts hr h
  rw [clockFrontEnd_count hp] at hfe
  rw [hfe]
  exact ⟨hp, by simp [hmask], countTick_spec s.params s.fe⟩

/-! ## The tick counter since a dispatch -/

/-- The front end has counted `n` cycles since its counters were 0 (41_decoder.md R161). -/
def CountedFor (p : Params) (n : Nat) (f : FrontEnd) : Prop :=
  f.presc = n % p.tickDiv ∧ f.ticks.toNat = min 65535 (n / p.tickDiv)

/-- One more cycle: where the remainder is full it wraps and the quotient goes up, elsewhere the remainder goes up. -/
theorem CountedFor.countTick {p : Params} {n : Nat} {f : FrontEnd} (hdiv : 1 ≤ p.tickDiv) (h : CountedFor p n f) :
    CountedFor p (n + 1) (countTick p f) := by
  obtain ⟨hpresc, hticks⟩ := h
  have hn : n % p.tickDiv + p.tickDiv * (n / p.tickDiv) = n := Nat.mod_add_div n p.tickDiv
  have hlt : n % p.tickDiv < p.tickDiv := Nat.mod_lt n hdiv
  have hspec := countTick_spec p f
  split at hspec
  next hwrap =>
    obtain ⟨hp, ht⟩ := hspec
    have hnext : 0 + p.tickDiv * (n / p.tickDiv + 1) = n + 1 := by rw [Nat.mul_succ]; omega
    obtain ⟨hq, hm⟩ := (Nat.div_mod_unique hdiv).mpr ⟨hnext, hdiv⟩
    exact ⟨by rw [hp, hm], by rw [ht, hticks, hq]; omega⟩
  next hmore =>
    obtain ⟨hp, ht⟩ := hspec
    have hnext : n % p.tickDiv + 1 + p.tickDiv * (n / p.tickDiv) = n + 1 := by omega
    obtain ⟨hq, hm⟩ := (Nat.div_mod_unique hdiv).mpr ⟨hnext, by omega⟩
    exact ⟨by rw [hp, hm, hpresc], by rw [ht, hticks, hq]⟩

/-- A cycle without a pin dispatch counts (41_decoder.md R161). -/
theorem CountedFor.step {s t : State} {n : Nat} (h : CountedFor s.params n s.fe) (hr : rstIn s = false)
    (hp : pinDispatch s = false) (ht : step s = .next t) : CountedFor t.params (n + 1) t.fe := by
  have hparams : t.params = s.params := congrArg Subtype.val (step_cfg ht)
  obtain ⟨⟨-, -, -, -, -, -, hdiv, -⟩, -⟩ := s.cfg.property
  obtain ⟨-, hfe, -⟩ := step_parts hr ht
  rw [hparams, hfe, clockFrontEnd_count hp]
  exact h.countTick hdiv

/-- A pin dispatch starts the count (41_decoder.md R162). -/
theorem countedFor_zero_of_dispatch {s t : State} (hr : rstIn s = false) (hp : pinDispatch s = true)
    (ht : step s = .next t) : CountedFor t.params 0 t.fe := by
  obtain ⟨-, hfe, -⟩ := step_parts hr ht
  rw [hfe, clockFrontEnd_dispatch hp]
  simp [CountedFor]

theorem Runs.countedFor {σ : Nat → State} {n : Nat} (h : Runs σ (n + 1)) (hr : rstIn (σ 0) = false)
    (hp : pinDispatch (σ 0) = true)
    (hquiet : ∀ k, 1 ≤ k → k ≤ n → rstIn (σ k) = false ∧ pinDispatch (σ k) = false) :
    CountedFor (σ (n + 1)).params n (σ (n + 1)).fe := by
  induction n with
  | zero => exact countedFor_zero_of_dispatch hr hp (h 0 (by omega))
  | succ n ih =>
    have ih := ih (fun k hk => h k (by omega)) fun k h1 hk => hquiet k h1 (by omega)
    obtain ⟨hrn, hpn⟩ := hquiet (n + 1) (by omega) le_rfl
    exact ih.step hrn hpn (h (n + 1) (by omega))

/-- Settles O37. -/
theorem ticksMeasureTheInterval : Obligations.TicksMeasureTheInterval := by
  intro σ n hrun hr hp hquiet
  obtain ⟨-, hticks⟩ := hrun.countedFor hr hp hquiet
  rw [hticks, hrun.params_eq (k := n + 1) le_rfl]

/-! ## Lost and mistimed edges (60_exceptions.md R262) -/

/-- The codes of 60_exceptions.md R262 that say something of an edge of the pin. -/
def Anomaly.ofEdge : Anomaly → Bool
  | .lostEdge | .mistimedEdge => true
  | .illegalCmd | .unrecognisedCode | .malformedFrame | .saturation | .repeatSuppressed | .orphanRepeat
  | .tickSaturation | .notReady => false

/-- None of the anomalies is a lost or a mistimed edge. -/
def NoEdgeAnomaly (l : List Anomaly) : Prop := ∀ a ∈ l, a.ofEdge = false

theorem NoEdgeAnomaly.nil : NoEdgeAnomaly [] := by simp [NoEdgeAnomaly]

theorem NoEdgeAnomaly.append {u v : List Anomaly} (hu : NoEdgeAnomaly u) (hv : NoEdgeAnomaly v) :
    NoEdgeAnomaly (u ++ v) := by
  intro a ha
  rcases List.mem_append.mp ha with h | h
  · exact hu a h
  · exact hv a h

theorem NoEdgeAnomaly.noteWhen {b : Bool} {a : Anomaly} (h : b = true → a.ofEdge = false) :
    NoEdgeAnomaly (noteWhen b a) := by
  cases b with
  | false => exact .nil
  | true => simpa [NoEdgeAnomaly, Machine.noteWhen] using h rfl

theorem noEdgeAnomaly_eventAnomalies (p : Params) (rs : RenderState) (rep : Byte) (e : Event) :
    NoEdgeAnomaly (eventAnomalies p rs rep e) := by
  cases e with
  | receive w => exact (NoEdgeAnomaly.noteWhen fun _ => rfl).append (.noteWhen fun _ => rfl)
  | repeated w =>
    exact ((NoEdgeAnomaly.noteWhen fun _ => rfl).append (.noteWhen fun _ => rfl)).append (.noteWhen fun _ => rfl)

theorem noEdgeAnomaly_edgeAnomalies (lv : Bool) (t : Ticks) (s : State) : NoEdgeAnomaly (edgeAnomalies lv t s) := by
  refine ((NoEdgeAnomaly.noteWhen fun _ => rfl).append (.noteWhen fun _ => rfl)).append ?_
  split
  · exact .nil
  · exact noEdgeAnomaly_eventAnomalies _ _ _ _

theorem noEdgeAnomaly_wordAnomalies (w : CommandWord) (s : State) : NoEdgeAnomaly (wordAnomalies w s) := by
  cases h : decodeCommand w with
  | error e => simp [wordAnomalies, h, NoEdgeAnomaly, Anomaly.ofEdge]
  | ok i =>
    cases i
    case cmdReceive c => simpa [wordAnomalies, h] using noEdgeAnomaly_eventAnomalies _ _ _ (.receive c)
    case cmdRepeat c => simpa [wordAnomalies, h] using noEdgeAnomaly_eventAnomalies _ _ _ (.repeated c)
    case decEdge lv t => simpa [wordAnomalies, h] using noEdgeAnomaly_edgeAnomalies lv t s
    case frameTick => simpa [wordAnomalies, h] using NoEdgeAnomaly.noteWhen fun _ => rfl
    all_goals simpa [wordAnomalies, h] using NoEdgeAnomaly.nil

/-- An edge is lost or mistimed only where one pends (41_decoder.md R164). -/
theorem noEdgeAnomaly_captureAnomalies {s : State} (h : s.fe.pend = false) : NoEdgeAnomaly (captureAnomalies s) :=
  ((NoEdgeAnomaly.noteWhen (by simp [h])).append (.noteWhen (by simp [h]))).append (.noteWhen fun _ => rfl)

theorem noEdgeAnomaly_cycleAnomalies {s : State} (h : s.fe.pend = false) : NoEdgeAnomaly (cycleAnomalies s) := by
  unfold cycleAnomalies
  split
  · exact .noteWhen fun _ => rfl
  · refine ((noEdgeAnomaly_captureAnomalies h).append ?_).append ?_
    · split
      · exact noEdgeAnomaly_edgeAnomalies _ _ _
      · exact .nil
    · split
      · exact noEdgeAnomaly_wordAnomalies _ _
      · exact .noteWhen fun _ => rfl

/-- Settles O38: without the mask every cycle is a service cycle and nothing pends. -/
theorem withoutMaskNoEdgeIsLost : Obligations.WithoutMaskNoEdgeIsLost := by
  intro s hs _ hnone
  have hpend : s.fe.pend = false := hs.frontEnd.2 hnone
  have hanomalies := noEdgeAnomaly_cycleAnomalies hpend
  refine ⟨by simp [pinDispatch, captureMasked_of_none hnone, hpend], fun hlost => ?_, fun hmist => ?_⟩
  · exact absurd (hanomalies _ hlost) (by decide)
  · exact absurd (hanomalies _ hmist) (by decide)

end Sys2Proof.Machine
end
